-- ==== Sys2Proof/Word.lean ====
section
/-! DEFINITION. The word and octet types of the block (00_scope.md R8, R9, R12). -/

namespace Sys2Proof

/-- `WORD`, `REG_BITS`: a command, operand, response or register word, bit 0 least significant (R8, R9). -/
abbrev Word := BitVec 32

/-- An octet, an integer from 0 to 255 (R12). -/
abbrev Byte := BitVec 8

end Sys2Proof
end

