-- ==== Sys2Proof/Syntax.lean ====
section
/-! DEFINITION. The commands of the block as syntax: one constructor per row of spec/opcode_table.json
(30_encoding.md R62 to R68, R72). -/

namespace Sys2Proof

/-- The four names of the standard algorithm catalogue (44_catalogue_and_construction.md R135, R136). -/
inductive Alg where
  | crc16
  | ccitt
  | xmodem
  | crc32
  deriving DecidableEq, Repr

/-- A command with its fields and the words that follow its command word. The data words of `proc` and
`compute` are kept whole, their padding bytes included, so that every word has one reading. -/
inductive Instr where
  /-- Format G: `W`, `RI`, `RO`, then POLY, INIT, XOROUT (R66). -/
  | createGeneric (w : BitVec 8) (ri ro : Bool) (poly init xorout : Word)
  /-- Format S: `ALG` (R64). -/
  | createStandard (alg : Alg)
  /-- Format Z (R63). -/
  | reset
  /-- Format Z (R63). -/
  | chksum
  /-- Format B: `BYTE` (R65). -/
  | procb (b : Byte)
  /-- Format D: `CNT`, then `ceil(CNT/4)` data words (R67). -/
  | proc (cnt : BitVec 16) (data : List Word)
  /-- Format Z (R63). -/
  | destroy
  /-- Format D: `CNT`, then `ceil(CNT/4)` data words (R67). -/
  | compute (cnt : BitVec 16) (data : List Word)
  /-- Format R: `N`, then VALUE (R68). -/
  | refl (n : BitVec 6) (value : Word)
  deriving DecidableEq, Repr

end Sys2Proof
end

