-- ==== Sys2Proof/WellFormed.lean ====
section
/-! DEFINITION. Which terms of `Instr` are commands: the number of data words agrees with `CNT`
(30_encoding.md R67). Every other field is bounded by its type. A width outside the supported set and a
reflection width above 32 are well-formed commands whose execution answers an error (R66, R68, R71). -/

namespace Sys2Proof

/-- `ceil(CNT/4)`, the number of data words of a format D command (R67). -/
def dataWords (cnt : BitVec 16) : Nat := (cnt.toNat + 3) / 4

/-- The well-formedness check. -/
def Instr.wf : Instr → Bool
  | .createGeneric _ _ _ _ _ _ => true
  | .createStandard _ => true
  | .reset => true
  | .chksum => true
  | .procb _ => true
  | .proc cnt data => data.length == dataWords cnt
  | .destroy => true
  | .compute cnt data => data.length == dataWords cnt
  | .refl _ _ => true

end Sys2Proof
end

