-- ==== Sys2Proof/Decode.lean ====
section
/-! DEFINITION. The opcode map, the length rule, the decoder and the encoder (30_encoding.md). The decoder is
total on any list of words: it answers a command, rejects an illegal command word by name, or says that words
are still missing. -/

namespace Sys2Proof

/-- The nine assigned opcodes, in the order of their OP values (R72). -/
inductive Op where
  | createGeneric
  | createStandard
  | reset
  | chksum
  | procb
  | proc
  | destroy
  | compute
  | refl
  deriving DecidableEq, Repr

/-- One row of the opcode map: `pattern` is the column `match` (R72). -/
structure Row where
  op : Op
  pattern : Word
  mask : Word
  deriving DecidableEq, Repr

/-- The opcode map (R72). -/
def opcodeMap : List Row :=
  [ ⟨.createGeneric,  0x00000001#32, 0xFFFC00FF#32⟩,
    ⟨.createStandard, 0x00000002#32, 0xFFFFFCFF#32⟩,
    ⟨.reset,          0x00000003#32, 0xFFFFFFFF#32⟩,
    ⟨.chksum,         0x00000004#32, 0xFFFFFFFF#32⟩,
    ⟨.procb,          0x00000005#32, 0xFFFF00FF#32⟩,
    ⟨.proc,           0x00000006#32, 0x0000FFFF#32⟩,
    ⟨.destroy,        0x00000007#32, 0xFFFFFFFF#32⟩,
    ⟨.compute,        0x00000008#32, 0x0000FFFF#32⟩,
    ⟨.refl,           0x00000009#32, 0xFFFFC0FF#32⟩ ]

/-- A command word matches a row when its fixed bits are the row's (R71). -/
def Row.matches (r : Row) (cw : Word) : Bool := cw &&& r.mask == r.pattern

/-- The opcode a command word stands for, if it is legal (R71). -/
def matchOp (cw : Word) : Option Op := (opcodeMap.find? (·.matches cw)).map (·.op)

/-- `legal(cw)` (R71). -/
def legal (cw : Word) : Bool := opcodeMap.any (·.matches cw)

/-! ### Fields of the command word (R69) -/

/-- `OP = cw[3:0]` (R60). -/
def opField (cw : Word) : BitVec 4 := cw.extractLsb' 0 4

/-- `W = cw[15:8]`, and `BYTE = cw[15:8]` (R65, R66). -/
def byteField (cw : Word) : BitVec 8 := cw.extractLsb' 8 8

/-- `ALG = cw[9:8]` (R64). -/
def algField (cw : Word) : BitVec 2 := cw.extractLsb' 8 2

/-- `RI = cw[16]` (R66). -/
def riField (cw : Word) : Bool := cw.getLsbD 16

/-- `RO = cw[17]` (R66). -/
def roField (cw : Word) : Bool := cw.getLsbD 17

/-- `CNT = cw[31:16]` (R67). -/
def cntField (cw : Word) : BitVec 16 := cw.extractLsb' 16 16

/-- `N = cw[13:8]` (R68). -/
def nField (cw : Word) : BitVec 6 := cw.extractLsb' 8 6

/-- The ALG number of a catalogue name (44_catalogue_and_construction.md R136). -/
def Alg.code : Alg → BitVec 2
  | .crc16 => 0#2
  | .ccitt => 1#2
  | .xmodem => 2#2
  | .crc32 => 3#2

/-- The catalogue name of an ALG number. All four are legal (R64). -/
def Alg.ofCode (c : BitVec 2) : Alg :=
  if c = 0#2 then .crc16 else if c = 1#2 then .ccitt else if c = 2#2 then .xmodem else .crc32

/-! ### Length -/

/-- How many words follow a legal command word (R62, R70). -/
def operandWords (op : Op) (cw : Word) : Nat :=
  match op with
  | .createGeneric => 3
  | .proc => dataWords (cntField cw)
  | .compute => dataWords (cntField cw)
  | .refl => 1
  | .createStandard => 0
  | .reset => 0
  | .chksum => 0
  | .procb => 0
  | .destroy => 0

/-- `length(cw)`, the length in words of a command with the command word `cw` (R70). -/
def commandLength (cw : Word) : Nat :=
  match matchOp cw with
  | none => 1
  | some op => 1 + operandWords op cw

/-- Whether a list has at least `n` elements, without counting further. -/
def hasAtLeast {α : Type} : Nat → List α → Bool
  | 0, _ => true
  | _ + 1, [] => false
  | n + 1, _ :: tail => hasAtLeast n tail

/-- The length of the command that a buffer begins with, 0 for the empty buffer. -/
def commandWords : List Word → Nat
  | [] => 0
  | cw :: _ => commandLength cw

/-- Whether a buffer holds all the words of the command it begins with (10_state.md R31). -/
def commandComplete : List Word → Bool
  | [] => false
  | cw :: rest => hasAtLeast (commandLength cw - 1) rest

/-! ### The decoder -/

/-- Why a command word is illegal. -/
inductive IllegalReason where
  /-- The OP is 0x0 or 0xA to 0xF (R73). -/
  | reservedOp
  /-- The OP is assigned and a reserved bit is set (R74). -/
  | reservedBit
  deriving DecidableEq, Repr

/-- The decoder's answer. -/
inductive Decoded where
  /-- A command, and the words after it. -/
  | instr (i : Instr) (rest : List Word)
  /-- An illegal command word, one word long, and the words after it (R73, R74, R77). -/
  | illegal (why : IllegalReason) (rest : List Word)
  /-- Words are still missing (70_reset_and_hazards.md R176). -/
  | incomplete
  deriving DecidableEq, Repr

/-- The reason an illegal command word is illegal: its OP is assigned or not (R73, R74). -/
def illegalReason (cw : Word) : IllegalReason :=
  if opcodeMap.any (fun r => opField cw == opField r.pattern) then .reservedBit else .reservedOp

/-- Puts a command together from its opcode, its command word and the words that follow (R62 to R69). -/
def assembleInstr (op : Op) (cw : Word) (ops : List Word) : Instr :=
  match op with
  | .createGeneric =>
    .createGeneric (byteField cw) (riField cw) (roField cw) (ops.getD 0 0) (ops.getD 1 0) (ops.getD 2 0)
  | .createStandard => .createStandard (Alg.ofCode (algField cw))
  | .reset => .reset
  | .chksum => .chksum
  | .procb => .procb (byteField cw)
  | .proc => .proc (cntField cw) ops
  | .destroy => .destroy
  | .compute => .compute (cntField cw) ops
  | .refl => .refl (nField cw) (ops.getD 0 0)

/-- Decodes the command at the head of a list of words (R70 to R77). -/
def decode : List Word → Decoded
  | [] => .incomplete
  | cw :: rest =>
    match matchOp cw with
    | none => .illegal (illegalReason cw) rest
    | some op =>
      if hasAtLeast (operandWords op cw) rest then
        .instr (assembleInstr op cw (rest.take (operandWords op cw))) (rest.drop (operandWords op cw))
      else .incomplete

/-! ### The encoder -/

/-- The opcode of a command. -/
def Instr.op : Instr → Op
  | .createGeneric _ _ _ _ _ _ => .createGeneric
  | .createStandard _ => .createStandard
  | .reset => .reset
  | .chksum => .chksum
  | .procb _ => .procb
  | .proc _ _ => .proc
  | .destroy => .destroy
  | .compute _ _ => .compute
  | .refl _ _ => .refl

/-- The command word, written from the encoding strings of R72, bit 31 first. -/
def commandWord : Instr → Word
  | .createGeneric w ri ro _ _ _ => 0#14 ++ BitVec.ofBool ro ++ BitVec.ofBool ri ++ w ++ 0x01#8
  | .createStandard alg => 0#22 ++ alg.code ++ 0x02#8
  | .reset => 0x00000003#32
  | .chksum => 0x00000004#32
  | .procb b => 0#16 ++ b ++ 0x05#8
  | .proc cnt _ => cnt ++ 0x0006#16
  | .destroy => 0x00000007#32
  | .compute cnt _ => cnt ++ 0x0008#16
  | .refl n _ => 0#18 ++ n ++ 0x09#8

/-- The words that follow the command word, in stream order (R62, R66 to R68). -/
def operandList : Instr → List Word
  | .createGeneric _ _ _ poly init xorout => [poly, init, xorout]
  | .createStandard _ => []
  | .reset => []
  | .chksum => []
  | .procb _ => []
  | .proc _ data => data
  | .destroy => []
  | .compute _ data => data
  | .refl _ value => [value]

/-- The words of a command, in stream order (R60). -/
def encode (i : Instr) : List Word := commandWord i :: operandList i

/-! ### Words numbered as spec/opcode_table.json numbers them -/

/-- The words of one command whose low `nbits` bits are `w`, bit 0 the least significant bit of the first word,
and whose other bits are 0: as many words as its first word asks for. -/
def tableWords (nbits w : Nat) : List Word :=
  let v := w % 2 ^ nbits
  let cw := BitVec.ofNat 32 v
  cw :: (List.range (commandLength cw - 1)).map (fun k => BitVec.ofNat 32 (v >>> (32 * (k + 1))))

/-- The command the decoder reads from `tableWords nbits w`, none where it rejects them. -/
def decodeTableWord (nbits w : Nat) : Option Instr :=
  match decode (tableWords nbits w) with
  | .instr i _ => some i
  | .illegal _ _ => none
  | .incomplete => none

end Sys2Proof
end

