-- ==== Sys2Proof/Config.lean ====
section
/-! DEFINITION. The implementation parameters of 00_scope.md R8. The open parameter `LATENCY` is a number of
clock cycles and has no constant here: the spec makes it unobservable at transaction level, and one step of the
model is one event, not one cycle (R182, log entry 4). -/

namespace Sys2Proof.Config

/-- `SUPPORTED_WIDTHS` (R2, R8). -/
def supportedWidths : List Nat := [8, 16, 24, 32]

/-- `REFL_NMAX`, the largest width of the REFL command (R8, 40_bit_reflector.md R89). -/
def reflNmax : Nat := 32

/-- The largest byte count of one PROC or COMPUTE: `CNT_BITS` is 16 (R8). -/
def maxCount : Nat := 65535

/-- The most words one command has, so the most the receive buffer holds (10_state.md R31). -/
def rxBufMax : Nat := 16385

end Sys2Proof.Config
end

