-- ==== Sys2Proof/Machine/State.lean ====
section
/-! DEFINITION. The state of the block as plain data (10_state.md), the reasons a step could stop, and the state
after hardware reset (10_state.md R36). The block has no addressable memory (20_memory.md R40), so State holds
none. -/

namespace Sys2Proof.Machine

/-- The two engine kinds (R22). -/
inductive Kind where
  | generic
  | table
  deriving DecidableEq, Repr

/-- The engine context, ten fields in the spec's order (R21 to R29). -/
structure Ctx where
  valid  : Bool
  kind   : Kind
  alg    : Alg
  width  : Nat
  poly   : Word
  init   : Word
  xorout : Word
  refin  : Bool
  refout : Bool
  crcReg : Word
  deriving DecidableEq, Repr

/-- The names of the status codes (60_exceptions.md R148). Their numbers are in Machine/Flags.lean. -/
inductive Status where
  | ok
  | unsupportedWidth
  | destroyedHandle
  /-- Reserved, never produced (R151). -/
  | outOfMemory
  | illegalCommand
  deriving DecidableEq, Repr

/-- A response: the pair of a status and a data word (60_exceptions.md R147). -/
structure Response where
  status : Status
  data   : Word
  deriving DecidableEq, Repr

/-- Faults. The spec has none: an error is a response and the block goes on (60_exceptions.md R153, R166), and an
incomplete command leaves the block waiting with its state held (70_reset_and_hazards.md R176). So nothing raises
a fault and the type is empty. -/
inductive Fault where
  deriving DecidableEq, Repr

/-- Refusals. -/
inductive Refusal where
  /-- An arm of `exec` that has no meaning yet. Safe. Every arm has its meaning, so nothing raises it. -/
  | notModelled (mnemonic : String)
  deriving DecidableEq, Repr

/-- The block and the host's side of its ports. -/
structure State where
  /-- The engine context (R21 to R29). -/
  ctx : Ctx
  /-- The command pointer (R30). -/
  cp : Nat
  /-- The receive buffer: the words of the current command received so far, in order (R31). -/
  rxBuf : List Word
  /-- The response slot (R32). -/
  rspSlot : Option Response
  /-- The input port `rst_n`: false while hardware reset is asserted (20_memory.md R42). -/
  rstN : Bool
  /-- The input port `rsp_ready` (20_memory.md R42). -/
  rspReady : Bool
  /-- The words the host is still to transfer, in order. The input port `cmd_valid` is 1 when there is one, and
  `cmd_data` is the first (20_memory.md R41 to R43, log entry 2). The host may change it between any two steps. -/
  cmdIn : List Word
  /-- The model's own record: the responses that have transferred to the host, oldest first
  (70_reset_and_hazards.md R183, log entry 3). -/
  rspOut : List Response
  deriving DecidableEq, Repr

/-- The context after hardware reset: every field 0 (R36). -/
def Ctx.zero : Ctx :=
  { valid := false, kind := .generic, alg := .crc16, width := 0, poly := 0#32, init := 0#32, xorout := 0#32,
    refin := false, refout := false, crcReg := 0#32 }

/-- The state right after hardware reset (R36), the input ports and the record as log entries 1 and 3 say. -/
def State.reset : State :=
  { ctx := Ctx.zero, cp := 0, rxBuf := [], rspSlot := none,
    rstN := true, rspReady := true, cmdIn := [], rspOut := [] }

end Sys2Proof.Machine
end

