-- ==== Sys2Proof/Machine/Flags.lean ====
section
/-! DEFINITION. The block has no flag register (10_state.md R20). What a command reports instead is the status of
its response: the status codes (60_exceptions.md R148). -/

namespace Sys2Proof.Machine

/-- The 4-bit code on `rsp_status` (60_exceptions.md R148). -/
def Status.code : Status → BitVec 4
  | .ok => 0#4
  | .unsupportedWidth => 1#4
  | .destroyedHandle => 2#4
  | .outOfMemory => 3#4
  | .illegalCommand => 4#4

end Sys2Proof.Machine
end

