-- ==== Sys2Proof/Machine/Catalogue.lean ====
section
/-! DEFINITION. The standard algorithm catalogue, constants of the block (44_catalogue_and_construction.md R135,
10_state.md R33; the tuples win over the source's worked examples, 90_conflicts.md C1 and C2). -/

namespace Sys2Proof.Machine

/-- A parameter set: width, polynomial, initial, xor_out, reflect_input, reflect_output. -/
structure Params where
  width  : Nat
  poly   : Word
  init   : Word
  xorout : Word
  refin  : Bool
  refout : Bool
  deriving DecidableEq, Repr

/-- The four catalogue entries (R135). -/
def catalogue : Alg → Params
  | .crc16  => ⟨16, 0x8005#32, 0x0000#32, 0x0000#32, true, true⟩
  | .ccitt  => ⟨16, 0x1021#32, 0xFFFF#32, 0x0000#32, false, false⟩
  | .xmodem => ⟨16, 0x8408#32, 0x0000#32, 0x0000#32, true, true⟩
  | .crc32  => ⟨32, 0x04C11DB7#32, 0xFFFFFFFF#32, 0xFFFFFFFF#32, true, true⟩

end Sys2Proof.Machine
end

