-- ==== Sys2Proof/Machine/Operands.lean ====
section
/-! DEFINITION. Values on their way into a datapath: the width mask (00_scope.md R11), the bytes packed in data
words (20_memory.md R46, R47) and the bit reflector (40_bit_reflector.md R83). -/

namespace Sys2Proof.Machine

/-- `mask(w) = 2^w - 1` (00_scope.md R11). -/
def mask (w : Nat) : Word := BitVec.ofNat 32 (2 ^ w - 1)

/-- The four bytes of a data word, in the order the block takes them: least significant first (20_memory.md R46). -/
def wordBytes (w : Word) : List Byte :=
  [w.extractLsb' 0 8, w.extractLsb' 8 8, w.extractLsb' 16 8, w.extractLsb' 24 8]

/-- The byte sequence of a format D command: the first `cnt` bytes of its data words. The padding bytes after
them are dropped (20_memory.md R46, R47). -/
def unpack (cnt : BitVec 16) (data : List Word) : List Byte :=
  (data.flatMap wordBytes).take cnt.toNat

/-- `rev(v, n)`: the `n` least significant bits of `v` in reverse order (40_bit_reflector.md R83). The sum of
R83 for `n + 1` is twice the sum for `n`, plus bit `n` of `v`. -/
def rev (v : Word) : Nat → Word
  | 0 => 0#32
  | n + 1 => (rev v n <<< 1) ||| (BitVec.ofBool (v.getLsbD n)).setWidth 32

/-- `rev(b, 8)` of an octet (40_bit_reflector.md R86). -/
def revByte (b : Byte) : Byte := (rev (b.setWidth 32) 8).setWidth 8

end Sys2Proof.Machine
end

