-- ==== Sys2Proof/Machine/Generic.lean ====
section
/-! DEFINITION. The datapath `crc_generic_bitwise` (41_crc_generic_bitwise.md). Registers are 32 bits wide and hold
values below `2^w`, so the fold and the shift lose nothing that R91 and R92 keep (log entry 5). -/

namespace Sys2Proof.Machine

/-- Input reflection (R90). -/
def reflectIn (refin : Bool) (b : Byte) : Byte := if refin then revByte b else b

/-- The fold: the byte enters the register at its most significant byte (R91). -/
def fold (w : Nat) (reg : Word) (b : Byte) : Word := reg ^^^ (b.setWidth 32 <<< (w - 8))

/-- One shift-XOR iteration (R92). -/
def shiftXor (w : Nat) (poly r : Word) : Word :=
  if r.getLsbD (w - 1) then ((r <<< 1) ^^^ poly) &&& mask w else (r <<< 1) &&& mask w

/-- `n` iterations of a function of one word. -/
def iterate (f : Word → Word) : Nat → Word → Word
  | 0, r => r
  | n + 1, r => iterate f n (f r)

/-- `gstep`, the byte step (R93). -/
def gstep (w : Nat) (poly : Word) (refin : Bool) (reg : Word) (b : Byte) : Word :=
  iterate (shiftXor w poly) 8 (fold w reg (reflectIn refin b))

/-- `gproc`, the byte step over a sequence in order (R94). -/
def gproc (w : Nat) (poly : Word) (refin : Bool) : Word → List Byte → Word
  | reg, [] => reg
  | reg, b :: s => gproc w poly refin (gstep w poly refin reg b) s

/-- `gfinal`, the checksum of a canonical register (R95). -/
def gfinal (w : Nat) (xorout : Word) (refout : Bool) (reg : Word) : Word :=
  ((if refout then rev reg w else reg) ^^^ xorout) &&& mask w

end Sys2Proof.Machine
end

