-- ==== Sys2Proof/Machine/Table.lean ====
section
/-! DEFINITION. The datapath `crc_table_accelerated` (42_crc_table_accelerated.md): the lookup tables, the ROM, the
two table byte steps, and the start value and checksum of a table engine. -/

namespace Sys2Proof.Machine

/-- The normal table `TN_a[i]` (R100). -/
def tn (a : Alg) (i : Byte) : Word := gstep (catalogue a).width (catalogue a).poly false 0#32 i

/-- One iteration of the least-significant-bit-first recurrence with the reflected polynomial (R101). -/
def shiftXorLsb (rpoly c : Word) : Word := if c.getLsbD 0 then (c >>> 1) ^^^ rpoly else c >>> 1

/-- The reflected table `TR_a[i]` (R101). -/
def tr (a : Alg) (i : Byte) : Word :=
  iterate (shiftXorLsb (rev (catalogue a).poly (catalogue a).width)) 8 (i.setWidth 32)

/-- `ROM(a, i)`: the one table that the algorithm's datapath reads (R102, 20_memory.md R51). -/
def rom (a : Alg) (i : Byte) : Word := if (catalogue a).refin then tr a i else tn a i

/-- The normal-form byte step, for `refin = 0`: the index is the register's top byte XOR the input byte (R104). -/
def tstepN (a : Alg) (reg : Word) (b : Byte) : Word :=
  ((reg <<< 8) ^^^ rom a ((reg >>> ((catalogue a).width - 8)).setWidth 8 ^^^ b)) &&& mask (catalogue a).width

/-- The reflected-form byte step, for `refin = 1`: the index is the register's low byte XOR the raw input
byte (R105). -/
def tstepR (a : Alg) (reg : Word) (b : Byte) : Word := (reg >>> 8) ^^^ rom a (reg.setWidth 8 ^^^ b)

/-- The byte step of the engine's form (R103). -/
def tstep (a : Alg) (reg : Word) (b : Byte) : Word :=
  if (catalogue a).refin then tstepR a reg b else tstepN a reg b

/-- `tproc`, the byte step over a sequence in order (R108). -/
def tproc (a : Alg) : Word → List Byte → Word
  | reg, [] => reg
  | reg, b :: s => tproc a (tstep a reg b) s

/-- `treset`, the start value of a table engine's register (R106). -/
def treset (a : Alg) : Word :=
  if (catalogue a).refin then rev (catalogue a).init (catalogue a).width else (catalogue a).init

/-- The canonical register of a table engine whose internal register is `reg` (R103). -/
def tcanon (a : Alg) (reg : Word) : Word :=
  if (catalogue a).refin then rev reg (catalogue a).width else reg

/-- `tfinal`, the checksum of a table engine whose internal register is `reg` (R107). -/
def tfinal (a : Alg) (reg : Word) : Word :=
  gfinal (catalogue a).width (catalogue a).xorout (catalogue a).refout (tcanon a reg)

end Sys2Proof.Machine
end

