-- ==== Sys2Proof/Machine/Ops.lean ====
section
/-! DEFINITION. The operations the commands share: the functions of the engine context (43_engine_interface.md
section 1), responding and raising an error (00_scope.md R13), and what the block does at its ports: receiving
words, handing over a response, and taking hardware reset (20_memory.md section 2, 70_reset_and_hazards.md
section 1). -/

namespace Sys2Proof.Machine

/-! ### Functions of the engine context -/

/-- `canon(ctx)`, the canonical register (10_state.md R29). -/
def Ctx.canon (c : Ctx) : Word :=
  match c.kind, c.refin with
  | .table, true => rev c.crcReg c.width
  | .table, false => c.crcReg
  | .generic, _ => c.crcReg

/-- `ResetVal(ctx)`, the register load value (43_engine_interface.md R116). -/
def Ctx.resetVal (c : Ctx) : Word :=
  match c.kind, c.refin with
  | .table, true => rev c.init c.width
  | .table, false => c.init
  | .generic, _ => c.init

/-- `Step(ctx, b)`, the byte step (43_engine_interface.md R117). -/
def Ctx.stepByte (c : Ctx) (b : Byte) : Word :=
  match c.kind, c.refin with
  | .table, true => tstepR c.alg c.crcReg b
  | .table, false => tstepN c.alg c.crcReg b
  | .generic, _ => gstep c.width c.poly c.refin c.crcReg b

/-- `Final(ctx)`, the checksum (43_engine_interface.md R118). -/
def Ctx.final (c : Ctx) : Word := gfinal c.width c.xorout c.refout c.canon

/-- The context with another register value. -/
def Ctx.setReg (c : Ctx) (r : Word) : Ctx := { c with crcReg := r }

/-- `Process(ctx, s)`: byte steps in order (43_engine_interface.md R119). -/
def Ctx.process : Ctx → List Byte → Ctx
  | c, [] => c
  | c, b :: s => Ctx.process (c.setReg (c.stepByte b)) s

/-- The context with its register reloaded (43_engine_interface.md R121). -/
def Ctx.reload (c : Ctx) : Ctx := c.setReg c.resetVal

/-! ### Responding -/

/-- What a command of the block answers. -/
abbrev Answer := Host.Outcome State Fault Refusal

/-- `respond(status, data)`: the command's single response enters the response slot (00_scope.md R13,
10_state.md R32). -/
def State.respond (s : State) (status : Status) (data : Word) : State :=
  { s with rspSlot := some ⟨status, data⟩ }

/-- The state with another engine context. -/
def State.setCtx (s : State) (c : Ctx) : State := { s with ctx := c }

/-- A command that completes: its writes to the context become visible together and it responds OK
(00_scope.md R14). -/
def complete (s : State) (c : Ctx) (data : Word) : Answer := .next ((s.setCtx c).respond .ok data)

/-- `raise E`, the block's one way to take an error: every write the command made to the context is discarded and
the response is the error's code with data 0 (00_scope.md R13, 60_exceptions.md R153). There is no trap and
nothing to return from (60_exceptions.md R155, R156). -/
def raise (s : State) (e : Status) : Answer := .next (s.respond e 0#32)

/-- An engine command: `require_valid()` and then its effect on the context and its response data
(43_engine_interface.md R120). -/
def engineCommand (s : State) (c : Ctx) (data : Word) : Answer :=
  if s.ctx.valid then complete s c data else raise s .destroyedHandle

/-- Applies `f` to a next state and leaves a stop as it is. -/
def mapNext (o : Answer) (f : State → State) : Answer :=
  match o with
  | .next s => .next (f s)
  | .fault r => .fault r
  | .refused r => .refused r

/-- The bookkeeping after a command of `len` words: the command pointer moves past it and the receive buffer
empties (10_state.md R30, R31). -/
def State.retire (s : State) (len : Nat) : State := { s with cp := s.cp + len, rxBuf := [] }

/-- An illegal command word: `IllegalCommand`, one word long, no effect on the context (30_encoding.md R73, R74,
60_exceptions.md R152). -/
def illegalCommand (s : State) : Answer := raise s .illegalCommand

/-! ### What the block does at a step -/

/-- What the block is doing. -/
inductive Phase where
  /-- Hardware reset is asserted (70_reset_and_hazards.md R167). -/
  | inReset
  /-- A response is offered to the host (20_memory.md R44). -/
  | responding
  /-- The receive buffer holds a whole command (20_memory.md R45). -/
  | executing
  /-- The block accepts command-stream words (20_memory.md R43). -/
  | receiving
  deriving DecidableEq, Repr

/-- The phase of a state. Reset comes before everything (R167), and no word of the next command is accepted until
the pending response has transferred (20_memory.md R45). -/
def State.phase (s : State) : Phase :=
  match s.rstN, s.rspSlot with
  | false, _ => .inReset
  | true, some _ => .responding
  | true, none => if commandComplete s.rxBuf then .executing else .receiving

/-- Hardware reset: the reset state of the block. The host's side of the ports stays as the host drives it
(10_state.md R36, 70_reset_and_hazards.md R167, R168). -/
def State.hardwareReset (s : State) : State :=
  { s with ctx := Ctx.zero, cp := 0, rxBuf := [], rspSlot := none }

/-- The response transfers if the host can accept it, and is held otherwise (20_memory.md R44). -/
def State.offerResponse (s : State) : State :=
  match s.rspReady, s.rspSlot with
  | true, some r => { s with rspSlot := none, rspOut := s.rspOut ++ [r] }
  | true, none => s
  | false, _ => s

/-- The offered word transfers to the receive buffer. With no word offered the block holds its state
(20_memory.md R43, 60_exceptions.md R165, 70_reset_and_hazards.md R176). -/
def State.receiveWord (s : State) : State :=
  match s.cmdIn with
  | [] => s
  | w :: ws => { s with rxBuf := s.rxBuf ++ [w], cmdIn := ws }

/-! ### The output ports (20_memory.md R42) -/

/-- `cmd_ready` (R43, R45, 70_reset_and_hazards.md R167). -/
def State.cmdReady (s : State) : Bool := s.phase == .receiving

/-- `rsp_valid` (R44, 70_reset_and_hazards.md R167). -/
def State.rspValid (s : State) : Bool := s.phase == .responding

/-- `rsp_status`, given while a response is offered. The spec states no value for it otherwise. -/
def State.rspStatus (s : State) : Option (BitVec 4) :=
  if s.rspValid then s.rspSlot.map (·.status.code) else none

/-- `rsp_data`, given while a response is offered. The spec states no value for it otherwise. -/
def State.rspData (s : State) : Option Word :=
  if s.rspValid then s.rspSlot.map (·.data) else none

/-! ### The input ports of the command channel (20_memory.md R42) -/

/-- `cmd_valid`: the host offers a word. -/
def State.cmdValid (s : State) : Bool := !s.cmdIn.isEmpty

/-- `cmd_data`, given while a word is offered. -/
def State.cmdData (s : State) : Option Word := s.cmdIn.head?

/-! ### The host's moves, between any two steps (70_reset_and_hazards.md R184)

A move changes the ports only. A host that breaks a duty gets the behaviour the rules give for what it did (R184):
the word that transfers is the one on the port at the transfer (20_memory.md R43), and an offer that was changed or
withdrawn before that has no effect. -/

/-- The host offers further words after those it has already offered. Agents that share the block send in any
order, and the block sees the merged stream (R178). -/
def State.send (s : State) (ws : List Word) : State := { s with cmdIn := s.cmdIn ++ ws }

/-- The host offers `ws` in place of whatever it offered before. -/
def State.offer (s : State) (ws : List Word) : State := { s with cmdIn := ws }

/-- The host lowers `cmd_valid` before the offered word has transferred, against R43. -/
def State.withdraw (s : State) : State := s.offer []

/-- The host changes `cmd_data` before the offered word has transferred, against R43. -/
def State.changeWord (s : State) (w : Word) : State := s.offer (w :: s.cmdIn.drop 1)

/-- The host drives `rsp_ready`. -/
def State.driveRspReady (s : State) (b : Bool) : State := { s with rspReady := b }

/-- The host drives `rst_n`. -/
def State.driveRstN (s : State) (b : Bool) : State := { s with rstN := b }

end Sys2Proof.Machine
end

