-- ==== Sys2Proof/Machine/Construct.lean ====
section
/-! DEFINITION. The construction commands CREATE_GENERIC and CREATE_STANDARD (44_catalogue_and_construction.md). -/

namespace Sys2Proof.Machine

/-- The context a successful CREATE_GENERIC builds: the operands masked to the width, the register loaded with
the masked INIT (R141, R144). -/
def genericCtx (w : Nat) (ri ro : Bool) (poly init xorout : Word) : Ctx :=
  { valid := true, kind := .generic, alg := .crc16, width := w,
    poly := poly &&& mask w, init := init &&& mask w, xorout := xorout &&& mask w,
    refin := ri, refout := ro, crcReg := init &&& mask w }

/-- The context CREATE_STANDARD builds for a catalogue entry (R139). -/
def standardCtx (a : Alg) : Ctx :=
  { valid := true, kind := .table, alg := a, width := (catalogue a).width,
    poly := (catalogue a).poly, init := (catalogue a).init, xorout := (catalogue a).xorout,
    refin := (catalogue a).refin, refout := (catalogue a).refout, crcReg := treset a }

/-- CREATE_GENERIC (R141). An engine that is already valid is replaced (R140); on `UnsupportedWidth` it is left
alone (R143). -/
def execCreateGeneric (w : BitVec 8) (ri ro : Bool) (poly init xorout : Word) (s : State) : Answer :=
  if w.toNat ∈ Config.supportedWidths then complete s (genericCtx w.toNat ri ro poly init xorout) 0#32
  else raise s .unsupportedWidth

/-- CREATE_STANDARD (R139). -/
def execCreateStandard (a : Alg) (s : State) : Answer := complete s (standardCtx a) 0#32

end Sys2Proof.Machine
end

