-- ==== Sys2Proof/Machine/Engine.lean ====
section
/-! DEFINITION. The engine commands RESET, PROCB, PROC, CHKSUM, COMPUTE and DESTROY
(43_engine_interface.md section 2). -/

namespace Sys2Proof.Machine

/-- RESET: reload the register (R121). -/
def execReset (s : State) : Answer := engineCommand s s.ctx.reload 0#32

/-- PROCB: process one byte (R122). -/
def execProcb (b : Byte) (s : State) : Answer := engineCommand s (s.ctx.process [b]) 0#32

/-- PROC: process a byte sequence (R123). -/
def execProc (cnt : BitVec 16) (data : List Word) (s : State) : Answer :=
  engineCommand s (s.ctx.process (unpack cnt data)) 0#32

/-- CHKSUM: respond the checksum and write nothing (R124). -/
def execChksum (s : State) : Answer := engineCommand s s.ctx s.ctx.final

/-- COMPUTE: reload, process and respond the checksum in one command (R125). -/
def execCompute (cnt : BitVec 16) (data : List Word) (s : State) : Answer :=
  engineCommand s (s.ctx.reload.process (unpack cnt data)) (s.ctx.reload.process (unpack cnt data)).final

/-- DESTROY: clear `valid` and leave the other fields as they are (R126). -/
def execDestroy (s : State) : Answer := engineCommand s { s.ctx with valid := false } 0#32

end Sys2Proof.Machine
end

