-- ==== Sys2Proof/Machine/Reflect.lean ====
section
/-! DEFINITION. The command REFL, direct access to the bit reflector (40_bit_reflector.md section 2). -/

namespace Sys2Proof.Machine

/-- REFL: respond `rev(VALUE, N)`, or `IllegalCommand` when `N` is above 32. The context is neither read nor
written (R89). -/
def execRefl (n : BitVec 6) (value : Word) (s : State) : Answer :=
  if n.toNat ≤ Config.reflNmax then complete s s.ctx (rev value n.toNat) else raise s .illegalCommand

end Sys2Proof.Machine
end

