-- ==== Sys2Proof/Machine/Dispatch.lean ====
section
/-! DEFINITION. One arm per command: the effect of a whole command on the context and the response slot. -/

namespace Sys2Proof.Machine

def exec (i : Instr) (s : State) : Host.Outcome State Fault Refusal :=
  match i with
  | .createGeneric w ri ro poly init xorout => Sys2Proof.Machine.execCreateGeneric w ri ro poly init xorout s
  | .createStandard alg => Sys2Proof.Machine.execCreateStandard alg s
  | .reset => Sys2Proof.Machine.execReset s
  | .chksum => Sys2Proof.Machine.execChksum s
  | .procb b => Sys2Proof.Machine.execProcb b s
  | .proc cnt data => Sys2Proof.Machine.execProc cnt data s
  | .destroy => Sys2Proof.Machine.execDestroy s
  | .compute cnt data => Sys2Proof.Machine.execCompute cnt data s
  | .refl n value => Sys2Proof.Machine.execRefl n value s

end Sys2Proof.Machine
end

