-- ==== Sys2Proof/Machine/Step.lean ====
section
/-! DEFINITION. One step of the block: one event at its ports or the execution of one command
(00_scope.md R3, 20_memory.md R45, log entry 4). -/

namespace Sys2Proof.Machine

/-- Executes the command in the receive buffer and moves past its words (20_memory.md R45, 10_state.md R30). -/
def runCommand (s : State) : Host.Outcome State Fault Refusal :=
  match decode s.rxBuf with
  | .instr i _ => mapNext (exec i s) (fun t => t.retire (commandWords s.rxBuf))
  | .illegal _ _ => mapNext (illegalCommand s) (fun t => t.retire (commandWords s.rxBuf))
  | .incomplete => .next s

/-- One step. -/
def step (s : State) : Host.Outcome State Fault Refusal :=
  match s.phase with
  | .inReset => .next s.hardwareReset
  | .responding => .next s.offerResponse
  | .executing => runCommand s
  | .receiving => .next s.receiveWord

/-- `s` with one whole command in the receive buffer, reset released and no response pending, so that the next
step executes exactly that command. It stands for the transfer of the command's words (log entry 6). -/
def State.withFetchWord (s : State) (nbits w : Nat) : State :=
  { s with rstN := true, rspSlot := none, rxBuf := tableWords nbits w }

end Sys2Proof.Machine
end

