-- ==== Sys2Proof/Machine/Assembler.lean ====
section
/-! DEFINITION. The assembler of 30_encoding.md section 6 (R78 to R80): from the text of a program to commands.
The block knows nothing of it; the step function does not use it. -/

namespace Sys2Proof.Machine

/-! ### Bytes to commands -/

/-- Packs bytes four to a data word, first byte lowest, padding bytes 0 (R78, 20_memory.md R46). -/
def packBytes : List Byte → List Word
  | [] => []
  | [a] => [0#8 ++ 0#8 ++ 0#8 ++ a]
  | [a, b] => [0#8 ++ 0#8 ++ b ++ a]
  | [a, b, c] => [0#8 ++ c ++ b ++ a]
  | a :: b :: c :: d :: rest => (d ++ c ++ b ++ a) :: packBytes rest

/-- PROC of a byte sequence that fits its count field (R78). -/
def procOf (s : List Byte) : Instr := .proc (BitVec.ofNat 16 s.length) (packBytes s)

/-- COMPUTE of a byte sequence that fits its count field (R78). -/
def computeOf (s : List Byte) : Instr := .compute (BitVec.ofNat 16 s.length) (packBytes s)

/-- Takes 65535 bytes for each PROC while more than that remain, `fuel` times at most (R80). -/
def procChunks : Nat → List Byte → List Instr
  | 0, s => [procOf s]
  | fuel + 1, s =>
    if s.length ≤ Config.maxCount then [procOf s]
    else procOf (s.take Config.maxCount) :: procChunks fuel (s.drop Config.maxCount)

/-- `proc BYTES` of any length (R80). -/
def procSequence (s : List Byte) : List Instr := procChunks s.length s

/-- `compute BYTES` of any length (R80). -/
def computeSequence (s : List Byte) : List Instr :=
  if s.length ≤ Config.maxCount then [computeOf s] else .reset :: (procSequence s ++ [.chksum])

/-! ### Tokens of a line -/

/-- A token. -/
inductive Token where
  | word (cs : List Char)
  | text (cs : List Char)
  | comma
  deriving DecidableEq, Repr

/-- Where the reader of a line stands; characters are collected last first. -/
inductive LexMode where
  | between
  | inWord (acc : List Char)
  | inText (acc : List Char)
  | inComment
  deriving DecidableEq, Repr

/-- Letters, digits and the underscore. -/
def isWordChar (c : Char) : Bool :=
  (48 ≤ c.toNat && c.toNat ≤ 57) || (65 ≤ c.toNat && c.toNat ≤ 90) || (97 ≤ c.toNat && c.toNat ≤ 122)
    || c.toNat == 95

/-- Reads a character that begins something: blank, comma (44), comment (59), string (34) or word. -/
def lexFirst (out : List Token) (c : Char) : Option (LexMode × List Token) :=
  if c.toNat = 32 ∨ c.toNat = 9 ∨ c.toNat = 13 then some (.between, out)
  else if c.toNat = 44 then some (.between, .comma :: out)
  else if c.toNat = 59 then some (.inComment, out)
  else if c.toNat = 34 then some (.inText [], out)
  else if isWordChar c then some (.inWord [c], out)
  else none

/-- Reads one character; the tokens are collected last first. -/
def lexChar (st : LexMode × List Token) (c : Char) : Option (LexMode × List Token) :=
  match st.1 with
  | .between => lexFirst st.2 c
  | .inWord acc =>
    if isWordChar c then some (.inWord (c :: acc), st.2) else lexFirst (.word acc.reverse :: st.2) c
  | .inText acc =>
    if c.toNat = 34 then some (.between, .text acc.reverse :: st.2)
    else if c.toNat < 128 then some (.inText (c :: acc), st.2)
    else none
  | .inComment => some st

/-- Reads characters from a mode on. -/
def lexChars : LexMode × List Token → List Char → Option (LexMode × List Token)
  | st, [] => some st
  | st, c :: cs =>
    match lexChar st c with
    | none => none
    | some st' => lexChars st' cs

/-- The tokens of a line. A string that does not end is an error. -/
def tokens (line : List Char) : Option (List Token) :=
  match lexChars (.between, []) line with
  | none => none
  | some (.inText _, _) => none
  | some (.inWord acc, out) => some (Token.word acc.reverse :: out).reverse
  | some (.between, out) => some out.reverse
  | some (.inComment, out) => some out.reverse

/-! ### Operands -/

/-- An operand: a number, a name or a string literal (R78). -/
inductive Arg where
  | num (n : Nat)
  | name (cs : List Char)
  | text (cs : List Char)
  deriving DecidableEq, Repr

/-- The value of a digit, decimal or hexadecimal. -/
def digitVal (c : Char) : Nat :=
  if c.toNat ≤ 57 then c.toNat - 48 else if c.toNat ≤ 70 then c.toNat - 55 else c.toNat - 87

def isDecDigit (c : Char) : Bool := 48 ≤ c.toNat && c.toNat ≤ 57

def isHexDigit (c : Char) : Bool :=
  isDecDigit c || (65 ≤ c.toNat && c.toNat ≤ 70) || (97 ≤ c.toNat && c.toNat ≤ 102)

/-- The number that digits write in a base. -/
def digitsVal (base : Nat) (cs : List Char) : Nat := cs.foldl (fun n c => n * base + digitVal c) 0

/-- A word as an operand: `0x` hexadecimal, decimal, or a name. A word that begins with a digit and is no number
is an error. -/
def wordArg (cs : List Char) : Option Arg :=
  match cs with
  | [] => none
  | c :: tail =>
    if isDecDigit c then
      match c.toNat == 48, tail with
      | true, x :: hex =>
        if x.toNat = 120 then
          if !hex.isEmpty && hex.all isHexDigit then some (.num (digitsVal 16 hex)) else none
        else if tail.all isDecDigit then some (.num (digitsVal 10 cs)) else none
      | true, [] => some (.num 0)
      | false, _ => if tail.all isDecDigit then some (.num (digitsVal 10 cs)) else none
    else some (.name cs)

/-- A token as an operand. -/
def tokenArg : Token → Option Arg
  | .word cs => wordArg cs
  | .text cs => some (.text cs)
  | .comma => none

/-- Operands separated by commas. -/
def args : List Token → Option (List Arg)
  | [] => some []
  | [t] => (tokenArg t).map (fun a => [a])
  | t :: .comma :: u :: rest =>
    match tokenArg t, args (u :: rest) with
    | some a, some as => some (a :: as)
    | none, _ => none
    | some _, none => none
  | _ :: _ => none

/-- A number below `bound`; out of range is an assembly error (R78). -/
def argNat (bound : Nat) : Arg → Option Nat
  | .num n => if n < bound then some n else none
  | .name _ => none
  | .text _ => none

/-- RI or RO: 0, 1, `false` or `true` (R78). -/
def argBool : Arg → Option Bool
  | .num n => if n = 0 then some false else if n = 1 then some true else none
  | .name cs => if cs = "true".toList then some true else if cs = "false".toList then some false else none
  | .text _ => none

/-- A catalogue name or an ALG number (R78). -/
def argAlg : Arg → Option Alg
  | .num n => if n < 4 then some (Alg.ofCode (BitVec.ofNat 2 n)) else none
  | .name cs =>
    if cs = "crc16".toList then some .crc16 else if cs = "ccitt".toList then some .ccitt
    else if cs = "xmodem".toList then some .xmodem else if cs = "crc32".toList then some .crc32 else none
  | .text _ => none

/-- An octet (R78). -/
def argByte (a : Arg) : Option Byte := (argNat 256 a).map (BitVec.ofNat 8)

/-- BYTES: one string literal, or a comma list of octets (R78). -/
def argBytes : List Arg → Option (List Byte)
  | [] => none
  | [.text cs] => some (cs.map (fun c => BitVec.ofNat 8 c.toNat))
  | as => as.mapM argByte

/-! ### Lines and programs -/

/-- `create_generic` with all six operands in range (R78). -/
def createGenericLine (w poly init xorout ri ro : Arg) : Option (List Instr) :=
  match argNat 256 w, argNat (2 ^ 32) poly, argNat (2 ^ 32) init, argNat (2 ^ 32) xorout, argBool ri, argBool ro with
  | some w, some p, some i, some x, some ri, some ro =>
    some [.createGeneric (BitVec.ofNat 8 w) ri ro (BitVec.ofNat 32 p) (BitVec.ofNat 32 i) (BitVec.ofNat 32 x)]
  | _, _, _, _, _, _ => none

/-- One command line: a mnemonic in lower case and its operands. Missing operands of `create_generic` take the
defaults of R79. -/
def commandLine (mnemonic : List Char) (ops : List Arg) : Option (List Instr) :=
  if mnemonic = "create_generic".toList then
    match ops with
    | [w, p] => createGenericLine w p (.num 0) (.num 0) (.num 0) (.num 0)
    | [w, p, i] => createGenericLine w p i (.num 0) (.num 0) (.num 0)
    | [w, p, i, x] => createGenericLine w p i x (.num 0) (.num 0)
    | [w, p, i, x, ri] => createGenericLine w p i x ri (.num 0)
    | [w, p, i, x, ri, ro] => createGenericLine w p i x ri ro
    | _ => none
  else if mnemonic = "create_standard".toList then
    match ops with
    | [a] => (argAlg a).map (fun a => [.createStandard a])
    | _ => none
  else if mnemonic = "reset".toList then if ops = [] then some [.reset] else none
  else if mnemonic = "chksum".toList then if ops = [] then some [.chksum] else none
  else if mnemonic = "destroy".toList then if ops = [] then some [.destroy] else none
  else if mnemonic = "procb".toList then
    match ops with
    | [a] => (argByte a).map (fun b => [.procb b])
    | _ => none
  else if mnemonic = "proc".toList then (argBytes ops).map procSequence
  else if mnemonic = "compute".toList then (argBytes ops).map computeSequence
  else if mnemonic = "refl".toList then
    match ops with
    | [n, v] =>
      match argNat (Config.reflNmax + 1) n, argNat (2 ^ 32) v with
      | some n, some v => some [.refl (BitVec.ofNat 6 n) (BitVec.ofNat 32 v)]
      | _, _ => none
    | _ => none
  else none

/-- One line of a program; a blank or comment line gives no command (R78). -/
def assembleLine (line : List Char) : Option (List Instr) :=
  match tokens line with
  | some [] => some []
  | some (.word mnemonic :: rest) => (args rest).bind (commandLine mnemonic)
  | some _ => none
  | none => none

/-- The lines of a text; a line ends at character 10. -/
def textLines : List Char → List (List Char)
  | [] => [[]]
  | c :: cs =>
    match c.toNat == 10, textLines cs with
    | true, ls => [] :: ls
    | false, [] => [[c]]
    | false, l :: ls => (c :: l) :: ls

/-- A program text as commands, none on an assembly error. -/
def assembleText (text : List Char) : Option (List Instr) :=
  ((textLines text).mapM assembleLine).map (·.flatten)

/-- A program text as the words of its command stream. -/
def assembleWords (text : String) : Option (List Word) :=
  (assembleText text.toList).map (·.flatMap encode)

end Sys2Proof.Machine
end

