-- ==== Sys2Proof/Safety.lean ====
section
/-! DEFINITION. What holds of every state of a run, and what the end and the waiting of a run are. -/

namespace Sys2Proof.Machine

/-- The parameters of a context as a tuple. -/
def Ctx.params (c : Ctx) : Params := ⟨c.width, c.poly, c.init, c.xorout, c.refin, c.refout⟩

/-- The invariant of 10_state.md R34: while the context is valid its width is supported, its values fit the
width, and a table engine has the parameters of its catalogue entry. -/
def Ctx.ok (c : Ctx) : Prop :=
  c.valid = true →
    c.width ∈ Config.supportedWidths ∧
    c.poly.toNat < 2 ^ c.width ∧ c.init.toNat < 2 ^ c.width ∧
    c.xorout.toNat < 2 ^ c.width ∧ c.crcReg.toNat < 2 ^ c.width ∧
    (c.kind = .table → c.params = catalogue c.alg)

/-- At most one command is in progress and at most one response pending: a pending response leaves the receive
buffer empty, and the buffer holds no more than the command it begins with (10_state.md R31,
20_memory.md R45). -/
def State.channelOk (s : State) : Prop :=
  (s.rspSlot ≠ none → s.rxBuf = []) ∧ s.rxBuf.length ≤ commandWords s.rxBuf

/-- A response the block may give: data 0 unless OK, and never `OutOfMemory` (60_exceptions.md R147, R151). -/
def Response.ok (r : Response) : Prop := (r.status ≠ .ok → r.data = 0#32) ∧ r.status ≠ .outOfMemory

/-- Every response that was accepted by the host or is pending, oldest first (log entry 3). -/
def State.responses (s : State) : List Response := s.rspOut ++ s.rspSlot.toList

/-- The invariant of the whole machine. -/
def State.ok (s : State) : Prop :=
  s.ctx.ok ∧ s.channelOk ∧ ∀ r ∈ s.responses, r.ok

/-- The run has ended: every word consumed, the receive buffer empty, every response transferred
(70_reset_and_hazards.md R183). -/
def State.ended (s : State) : Bool := s.cmdIn.isEmpty && s.rxBuf.isEmpty && s.rspSlot.isNone

/-- The block waits for the rest of an incomplete command and none is offered (70_reset_and_hazards.md R176). -/
def State.waitsForWords (s : State) : Bool :=
  s.phase == .receiving && !s.rxBuf.isEmpty && s.cmdIn.isEmpty

/-- The block waits for the host to accept a response (70_reset_and_hazards.md R179). -/
def State.waitsForAccept (s : State) : Bool := s.phase == .responding && !s.rspReady

/-- Two contexts no command can tell apart: the same context, two contexts without a valid engine
(10_state.md R37), or two valid engines with equal parameters and equal canonical registers
(42_crc_table_accelerated.md R111). -/
def Ctx.indistinguishable (c d : Ctx) : Prop :=
  c = d ∨ (c.valid = false ∧ d.valid = false) ∨
    (c.valid = true ∧ d.valid = true ∧ c.params = d.params ∧ c.canon = d.canon)

end Sys2Proof.Machine
end

