-- ==== Sys2Proof/Certificates/Slice0/Obligations.lean ====
section
/-! DEFINITION. The statements for the provers, and the few reference functions they are stated with: the
pseudocode of the spec on natural numbers (00_scope.md R10), written independently of the bit-vector datapaths. -/

namespace Sys2Proof.Reference

/-- The sum of 40_bit_reflector.md R83. -/
def revNat (v n : Nat) : Nat := ((List.range n).map (fun i => (v.testBit i).toNat * 2 ^ (n - 1 - i))).sum

/-- One iteration of 41_crc_generic_bitwise.md R92. -/
def shiftXorNat (w poly r : Nat) : Nat :=
  if r.testBit (w - 1) then ((r <<< 1) ^^^ poly) &&& (2 ^ w - 1) else (r <<< 1) &&& (2 ^ w - 1)

/-- `gstep` of 41_crc_generic_bitwise.md R93. -/
def gstepNat (w poly : Nat) (refin : Bool) (reg b : Nat) : Nat :=
  (shiftXorNat w poly)^[8] (reg ^^^ ((if refin then revNat b 8 else b) <<< (w - 8)))

/-- `gfinal` of 41_crc_generic_bitwise.md R95. -/
def gfinalNat (w xorout : Nat) (refout : Bool) (reg : Nat) : Nat :=
  ((if refout then revNat reg w else reg) ^^^ xorout) &&& (2 ^ w - 1)

/-- The commands that need a valid engine (43_engine_interface.md R120). -/
def needsEngine : Instr → Bool
  | .reset => true
  | .procb _ => true
  | .proc _ _ => true
  | .chksum => true
  | .compute _ _ => true
  | .destroy => true
  | .createGeneric _ _ _ _ _ _ => false
  | .createStandard _ => false
  | .refl _ _ => false

/-- The commands whose response carries a result (60_exceptions.md R147). -/
def givesData : Instr → Bool
  | .chksum => true
  | .compute _ _ => true
  | .refl _ _ => true
  | .reset => false
  | .procb _ => false
  | .proc _ _ => false
  | .destroy => false
  | .createGeneric _ _ _ _ _ _ => false
  | .createStandard _ => false

/-- The commands that may stand between two CHKSUMs without changing the checksum (43_engine_interface.md R131). -/
inductive Read where
  | refl (n : BitVec 6) (value : Word)
  | chksum
  | illegal
  deriving DecidableEq, Repr

/-- What such a command answers. -/
def Read.exec (c : Read) (s : Machine.State) : Machine.Answer :=
  match c with
  | .refl n value => Machine.exec (.refl n value) s
  | .chksum => Machine.exec .chksum s
  | .illegal => Machine.illegalCommand s

/-- Executing a list of them, in order, leads from `s` to `u`. -/
def runReads : List Read → Machine.State → Machine.State → Prop
  | [], s, u => u = s
  | c :: cs, s, u => ∃ t, c.exec s = .next t ∧ runReads cs t u

/-- Byte `k` of the data words (20_memory.md R46). -/
def dataByte (data : List Word) (k : Nat) : Byte := (data.getD (k / 4) 0#32).extractLsb' (8 * (k % 4)) 8

/-- The byte step of an engine on a register value (43_engine_interface.md R117). -/
def byteStep (c : Machine.Ctx) (r : Word) (b : Byte) : Word :=
  if c.kind = .generic then Machine.gstep c.width c.poly c.refin r b
  else if c.refin = false then Machine.tstepN c.alg r b
  else Machine.tstepR c.alg r b

/-- The register load value (43_engine_interface.md R116). -/
def loadValue (c : Machine.Ctx) : Word :=
  if c.kind = .table ∧ c.refin = true then Machine.rev c.init c.width else c.init

/-- The checksum of an engine whose register is `r` (43_engine_interface.md R118, 10_state.md R29). -/
def checksum (c : Machine.Ctx) (r : Word) : Word :=
  Machine.gfinal c.width c.xorout c.refout (if c.kind = .table ∧ c.refin = true then Machine.rev r c.width else r)

end Sys2Proof.Reference

open Sys2Proof Sys2Proof.Machine Sys2Proof.Reference

/-! ### Encoding (30_encoding.md) -/

/-- Decoding the words of a well-formed command gives the command back, whatever follows it. -/
def Obligations.DecodeOfEncodeGivesTheCommand : Prop :=
  ∀ (i : Instr) (rest : List Word), i.wf = true → decode (encode i ++ rest) = .instr i rest

/-- Every decoded command is well formed and encodes to exactly the words it was read from. -/
def Obligations.EncodeOfDecodeGivesTheWords : Prop :=
  ∀ (ws rest : List Word) (i : Instr), decode ws = .instr i rest → i.wf = true ∧ encode i ++ rest = ws

/-- R71: legality, at most one row, and a total decoder. -/
def Obligations.EveryWordIsOneLegalCommandOrIllegal : Prop :=
  ∀ cw : Word,
    (legal cw = true ↔ ∃ r ∈ opcodeMap, cw &&& r.mask = r.pattern) ∧
    (∀ r₁ ∈ opcodeMap, ∀ r₂ ∈ opcodeMap,
      cw &&& r₁.mask = r₁.pattern → cw &&& r₂.mask = r₂.pattern → r₁ = r₂) ∧
    (∀ ops : List Word, ops.length + 1 = commandLength cw →
      (legal cw = true → ∃ i, decode (cw :: ops) = .instr i []) ∧
      (legal cw = false → ∃ why, decode (cw :: ops) = .illegal why []))

/-- R70: the length of a command in words. -/
def Obligations.CommandLengthFollowsTheCommandWord : Prop :=
  (∀ cw : Word, commandLength cw =
    if legal cw = false then 1
    else if cw.extractLsb' 0 4 = 0x1#4 then 4
    else if cw.extractLsb' 0 4 = 0x6#4 ∨ cw.extractLsb' 0 4 = 0x8#4 then 1 + ((cw >>> 16).toNat + 3) / 4
    else if cw.extractLsb' 0 4 = 0x9#4 then 2
    else 1) ∧
  commandLength 0x00090006#32 = 4

/-- R81: the spec's worked encodings, from assembly text to words and from words to commands. -/
def Obligations.WorkedEncodingsAssembleAndDecode : Prop :=
  assembleWords "create_generic 32, 0x04C11DB7, 0xFFFFFFFF, 0xFFFFFFFF, 1, 1"
      = some [0x00032001#32, 0x04C11DB7#32, 0xFFFFFFFF#32, 0xFFFFFFFF#32] ∧
    decode [0x00032001#32, 0x04C11DB7#32, 0xFFFFFFFF#32, 0xFFFFFFFF#32]
      = .instr (.createGeneric 0x20#8 true true 0x04C11DB7#32 0xFFFFFFFF#32 0xFFFFFFFF#32) [] ∧
    assembleWords "proc \"123456789\"" = some [0x00090006#32, 0x34333231#32, 0x38373635#32, 0x00000039#32] ∧
    decode [0x00090006#32, 0x34333231#32, 0x38373635#32, 0x00000039#32]
      = .instr (.proc 9#16 [0x34333231#32, 0x38373635#32, 0x00000039#32]) [] ∧
    assembleWords "create_standard crc32" = some [0x00000302#32] ∧
    decode [0x00000302#32] = .instr (.createStandard .crc32) []

/-- R73: a reserved OP is one word long, responds `IllegalCommand` with data 0 and changes nothing else but the
position in the stream. -/
def Obligations.ReservedOpcodeAnswersIllegalCommand : Prop :=
  (∀ (s : State) (cw : Word), s.rstN = true → s.rspSlot = none → s.rxBuf = [cw] →
    (cw.extractLsb' 0 4 = 0x0#4 ∨ 0xA ≤ (cw.extractLsb' 0 4).toNat) →
    legal cw = false ∧ commandLength cw = 1 ∧
      step s = .next { s with rspSlot := some ⟨.illegalCommand, 0#32⟩, cp := s.cp + 1, rxBuf := [] }) ∧
  legal 0x00000000#32 = false

/-- R74: an assigned OP with a reserved bit set is illegal in the same way, one word long even when its OP would
take operand or data words. -/
def Obligations.ReservedBitAnswersIllegalCommand : Prop :=
  ∀ (s : State) (cw : Word) (r : Row), s.rstN = true → s.rspSlot = none → s.rxBuf = [cw] →
    r ∈ opcodeMap → cw.extractLsb' 0 4 = r.pattern.extractLsb' 0 4 → cw &&& r.mask ≠ r.pattern →
    legal cw = false ∧ commandLength cw = 1 ∧
      step s = .next { s with rspSlot := some ⟨.illegalCommand, 0#32⟩, cp := s.cp + 1, rxBuf := [] }

/-- R80: a long `proc` becomes commands that carry the bytes in order, at most 65535 each, and as few as that
allows. -/
def Obligations.LongProcSplitsIntoTheFewestCommands : Prop :=
  ∀ s : List Byte,
    (procSequence s).length = max 1 ((s.length + 65534) / 65535) ∧
    (∀ i ∈ procSequence s, ∃ cnt data, i = .proc cnt data ∧ i.wf = true) ∧
    (procSequence s).flatMap (fun i => match i with | .proc cnt data => unpack cnt data | _ => []) = s

/-! ### The channels and the step (10_state.md, 20_memory.md, 70_reset_and_hazards.md) -/

/-- When the receive buffer decodes to a command, the step is that command's execution, then the command pointer
moves past its words and the buffer empties. -/
def Obligations.StepExecutesTheBufferedCommand : Prop :=
  ∀ (s t : State) (i : Instr), s.rstN = true → s.rspSlot = none → decode s.rxBuf = .instr i [] →
    exec i s = .next t → step s = .next { t with cp := t.cp + s.rxBuf.length, rxBuf := [] }

/-- A whole command offered on the channel runs: its words transfer, it executes, its response transfers, and the
words after it are untouched. -/
def Obligations.OfferedCommandRunsToItsResponse : Prop :=
  ∀ (s t : State) (i : Instr) (ws : List Word),
    i.wf = true → s.rstN = true → s.rspReady = true → s.rspSlot = none → s.rxBuf = [] →
    s.cmdIn = encode i ++ ws → exec i s = .next t →
    Sys2Proof.core.run ((encode i).length + 2) s =
      .next { t with cp := s.cp + (encode i).length, rxBuf := [], cmdIn := ws, rspSlot := none,
                     rspOut := s.rspOut ++ t.rspSlot.toList }

/-- R30: only executing a command moves the command pointer, by the command's length; hardware reset clears it. -/
def Obligations.CommandPointerAdvancesByTheLength : Prop :=
  State.reset.cp = 0 ∧
  ∀ s t : State, step s = .next t →
    (s.rstN = false → t.cp = 0) ∧
    (s.rstN = true → ∀ cw rest, s.rxBuf = cw :: rest → s.rspSlot = none → commandLength cw ≤ rest.length + 1 →
      t.cp = s.cp + commandLength cw) ∧
    (s.rstN = true → (s.rspSlot ≠ none ∨ s.rxBuf = [] ∨
      ∃ cw rest, s.rxBuf = cw :: rest ∧ rest.length + 1 < commandLength cw) → t.cp = s.cp)

/-- A word transfers when reset is released, no response is pending and the buffered command is not complete: the word
then on the port goes to the end of the receive buffer. With none on the port (the host has not raised `cmd_valid`, or
has withdrawn its word) the state is held (log entry 7). While `cmd_ready` is 0, what is offered has no effect: with
any other offer the step is the same, so a word changed or withdrawn before its transfer leaves no trace. The offered
words are the queue of log entry 2. That `cmd_ready` is 1 whenever a word could be accepted is log entry 4: R43 and R172 let
the block hold it at 0 for any finite time, and the model shows no such cycle. -/
def Obligations.OfferedWordEntersTheReceiveBuffer : Prop :=
  (∀ (s : State) (w : Word) (ws : List Word), s.rstN = true → s.rspSlot = none →
    commandComplete s.rxBuf = false → s.cmdIn = w :: ws →
    s.cmdReady = true ∧ step s = .next { s with rxBuf := s.rxBuf ++ [w], cmdIn := ws }) ∧
  (∀ (s : State) (w : Word), s.rstN = true → s.rspSlot = none →
    commandComplete s.rxBuf = false → s.cmdIn ≠ [] →
    step s.withdraw = .next s.withdraw ∧
    step (s.changeWord w) = .next { s with rxBuf := s.rxBuf ++ [w], cmdIn := s.cmdIn.drop 1 }) ∧
  (∀ (s t : State) (ws : List Word), s.cmdReady = false → step s = .next t →
    step (s.offer ws) = .next (t.offer ws))

/-- A response is offered under its status code (R44, R148) and meanwhile no word is accepted (R45); it transfers when
the host can accept it, which empties the slot, and until then it is offered unchanged. The record of transferred
responses is log entry 3; that holding is a step to the same state is log entry 7. -/
def Obligations.ResponseIsHeldUntilTheHostAccepts : Prop :=
  ∀ (s : State) (r : Response), s.rstN = true → s.rspSlot = some r →
    s.rspValid = true ∧
    s.rspStatus = some (match r.status with
      | .ok => 0#4 | .unsupportedWidth => 1#4 | .destroyedHandle => 2#4 | .outOfMemory => 3#4
      | .illegalCommand => 4#4) ∧
    s.rspData = some r.data ∧ s.cmdReady = false ∧
    (s.rspReady = true → step s = .next { s with rspSlot := none, rspOut := s.rspOut ++ [r] }) ∧
    (s.rspReady = false → step s = .next s)

/-- An incomplete command with nothing more offered leaves the block as it is; the next word completes it whatever it
is, and hardware reset ends the wait (R176, which calls the wait a stuck state; that it is a step to the same state
is log entry 7, and the offered words are the queue of log entry 2). -/
def Obligations.IncompleteCommandWaits : Prop :=
  ∀ (s : State) (cw : Word) (rest : List Word), s.rstN = true → s.rspSlot = none →
    s.rxBuf = cw :: rest → rest.length + 1 < commandLength cw → s.cmdIn = [] →
    step s = .next s ∧
    (∀ w ws, step (s.send (w :: ws)) = .next { s with rxBuf := cw :: (rest ++ [w]), cmdIn := ws }) ∧
    step (s.driveRstN false) =
      .next { s with rstN := false, ctx := Ctx.zero, cp := 0, rxBuf := [], rspSlot := none }

/-- While `rst_n = 0` every step takes the reset state, discards the buffer and the pending response, transfers
nothing, and both output handshakes are low (R167, R168). The queue of offered words (log entry 2) and the record of
transferred responses (log entry 3) are the host's side, which it leaves. -/
def Obligations.HardwareResetTakesTheResetState : Prop :=
  ∀ s : State, s.rstN = false →
    s.cmdReady = false ∧ s.rspValid = false ∧
    step s = .next
      { ctx := ⟨false, .generic, .crc16, 0, 0#32, 0#32, 0#32, false, false, 0#32⟩,
        cp := 0, rxBuf := [], rspSlot := none,
        rstN := false, rspReady := s.rspReady, cmdIn := s.cmdIn, rspOut := s.rspOut }

/-- R36: the state after hardware reset. -/
def Obligations.ResetStateIsAllZero : Prop :=
  State.reset.ctx = ⟨false, .generic, .crc16, 0, 0#32, 0#32, 0#32, false, false, 0#32⟩ ∧
    State.reset.cp = 0 ∧ State.reset.rxBuf = [] ∧ State.reset.rspSlot = none

/-- The block never stops by itself: every step answers a next state (60_exceptions.md R166, which the spec marks as
derived). That this holds also while the block only waits for the host is log entry 7: the wait, which R176 calls a
stuck state, is a step to the same state, neither a fault nor a refusal. -/
def Obligations.EveryStepAnswersANextState : Prop := ∀ s : State, ∃ t, step s = .next t

/-- Every run comes to rest: within four steps a word and four more, a state that only the host can change. Either
the run has ended, or the last command waits for words that were not sent, or, only if the host does not accept
responses, one waits to be accepted. The offered words are the queue of log entry 2, and that rest is a step to the
same state is log entry 7. -/
def Obligations.EveryRunEndsOrWaitsForTheHost : Prop :=
  ∀ s : State, s.channelOk → s.rstN = true →
    ∃ n t, n ≤ 4 * s.cmdIn.length + 4 ∧ Sys2Proof.core.run n s = .next t ∧ step t = .next t ∧
      (t.ended = true ∨ t.waitsForWords = true ∨ s.rspReady = false ∧ t.waitsForAccept = true)

/-- The command stream is consumed once and in order: what a step moves the command pointer past are the first
words of what the block held and the host still offered. -/
def Obligations.StreamIsConsumedOnceInOrder : Prop :=
  ∀ s t : State, s.channelOk → s.rstN = true → step s = .next t →
    s.cp ≤ t.cp ∧ t.rxBuf ++ t.cmdIn = (s.rxBuf ++ s.cmdIn).drop (t.cp - s.cp)

/-- Executing a command gives exactly one response, after those before it; nothing else gives or loses one. -/
def Obligations.OneResponsePerCommandInOrder : Prop :=
  ∀ s t : State, s.rstN = true → step s = .next t →
    ∃ fresh : List Response, t.responses = s.responses ++ fresh ∧
      fresh.length = if s.rspSlot = none ∧ commandComplete s.rxBuf = true then 1 else 0

/-! ### Invariants -/

/-- R34: the context invariant is kept by every step. -/
def Obligations.EveryStepKeepsTheContextInvariant : Prop :=
  ∀ s t : State, s.ctx.ok → step s = .next t → t.ctx.ok

/-- At most one command in progress and at most one response pending (R31, R45), kept by every step. -/
def Obligations.EveryStepKeepsOneCommandInProgress : Prop :=
  ∀ s t : State, s.channelOk → step s = .next t → t.channelOk

/-- Every response given has data 0 unless it is OK, and none is `OutOfMemory`; kept by every step. -/
def Obligations.EveryStepKeepsResponsesLegal : Prop :=
  ∀ s t : State, (∀ r ∈ s.responses, r.ok) → step s = .next t → ∀ r ∈ t.responses, r.ok

/-- The three invariants hold after hardware reset. -/
def Obligations.ResetStateMeetsTheInvariants : Prop := State.reset.ok

/-- R31: the receive buffer never holds more than 16385 words. -/
def Obligations.ReceiveBufferHoldsAtMostOneCommand : Prop :=
  ∀ s : State, s.channelOk → s.rxBuf.length ≤ 16385

/-! ### Commands: status, frame, results -/

/-- R154: the one status a command reports, by the order of the checks. -/
def Obligations.StatusFollowsTheOrderOfChecks : Prop :=
  (∀ (s : State) (cw : Word), s.rstN = true → s.rspSlot = none → s.rxBuf = [cw] → legal cw = false →
    ∃ t, step s = .next t ∧ t.rspSlot = some ⟨.illegalCommand, 0#32⟩) ∧
  ∀ (i : Instr) (s : State), ∃ t d, exec i s = .next t ∧ t.rspSlot = some ⟨
    match i with
    | .refl n _ => if 32 < n.toNat then .illegalCommand else .ok
    | .createGeneric w _ _ _ _ _ =>
      if w.toNat = 8 ∨ w.toNat = 16 ∨ w.toNat = 24 ∨ w.toNat = 32 then .ok else .unsupportedWidth
    | .createStandard _ => .ok
    | _ => if s.ctx.valid = true then .ok else .destroyedHandle, d⟩

/-- R147: a response carries data only when it is OK and answers CHKSUM, COMPUTE or REFL. -/
def Obligations.OnlyThreeCommandsRespondWithData : Prop :=
  ∀ (i : Instr) (s t : State) (r : Response), exec i s = .next t → t.rspSlot = some r → r.data ≠ 0#32 →
    r.status = .ok ∧ givesData i = true

/-- A command that raises an error writes nothing to the context. -/
def Obligations.ErrorLeavesTheContextUnchanged : Prop :=
  ∀ (i : Instr) (s t : State) (r : Response), exec i s = .next t → t.rspSlot = some r → r.status ≠ .ok →
    t.ctx = s.ctx ∧ r.data = 0#32

/-- The frame of every command: besides the response slot it writes the context only, and of the context CHKSUM
and REFL write nothing, RESET, PROCB, PROC and COMPUTE only `crc_reg`, DESTROY only `valid`. -/
def Obligations.CommandsWriteOnlyTheirFields : Prop :=
  ∀ (i : Instr) (s t : State), exec i s = .next t →
    t = { s with ctx := t.ctx, rspSlot := t.rspSlot } ∧
    match i with
    | .chksum | .refl _ _ => t.ctx = s.ctx
    | .reset | .procb _ | .proc _ _ | .compute _ _ => t.ctx = { s.ctx with crcReg := t.ctx.crcReg }
    | .destroy => t.ctx = { s.ctx with valid := t.ctx.valid }
    | .createGeneric _ _ _ _ _ _ => t.ctx = s.ctx ∨ t.ctx.valid = true
    | .createStandard _ => t.ctx.valid = true

/-- CREATE_STANDARD always completes and builds the catalogue entry, whatever engine was there. -/
def Obligations.CreateStandardBuildsTheCatalogueEntry : Prop :=
  ∀ s : State,
    exec (.createStandard .crc16) s = .next { s with
      ctx := ⟨true, .table, .crc16, 16, 0x8005#32, 0x0000#32, 0x0000#32, true, true, 0x0000#32⟩,
      rspSlot := some ⟨.ok, 0#32⟩ } ∧
    exec (.createStandard .ccitt) s = .next { s with
      ctx := ⟨true, .table, .ccitt, 16, 0x1021#32, 0xFFFF#32, 0x0000#32, false, false, 0xFFFF#32⟩,
      rspSlot := some ⟨.ok, 0#32⟩ } ∧
    exec (.createStandard .xmodem) s = .next { s with
      ctx := ⟨true, .table, .xmodem, 16, 0x8408#32, 0x0000#32, 0x0000#32, true, true, 0x0000#32⟩,
      rspSlot := some ⟨.ok, 0#32⟩ } ∧
    exec (.createStandard .crc32) s = .next { s with
      ctx := ⟨true, .table, .crc32, 32, 0x04C11DB7#32, 0xFFFFFFFF#32, 0xFFFFFFFF#32, true, true, 0xFFFFFFFF#32⟩,
      rspSlot := some ⟨.ok, 0#32⟩ }

/-- CREATE_GENERIC with a supported width completes and builds a generic engine from the masked operands. -/
def Obligations.CreateGenericBuildsTheMaskedEngine : Prop :=
  ∀ (w : BitVec 8) (ri ro : Bool) (poly init xorout m : Word) (s : State),
    w.toNat = 8 ∨ w.toNat = 16 ∨ w.toNat = 24 ∨ w.toNat = 32 → m.toNat = 2 ^ w.toNat - 1 →
    exec (.createGeneric w ri ro poly init xorout) s = .next { s with
      ctx := ⟨true, .generic, .crc16, w.toNat, poly &&& m, init &&& m, xorout &&& m, ri, ro, init &&& m⟩,
      rspSlot := some ⟨.ok, 0#32⟩ }

/-- R142 and R143: CREATE_GENERIC with any other width raises `UnsupportedWidth` and changes nothing; no other
command raises it. -/
def Obligations.UnsupportedWidthChangesNothing : Prop :=
  (∀ (w : BitVec 8) (ri ro : Bool) (poly init xorout : Word) (s : State),
    ¬ (w.toNat = 8 ∨ w.toNat = 16 ∨ w.toNat = 24 ∨ w.toNat = 32) →
    exec (.createGeneric w ri ro poly init xorout) s
      = .next { s with rspSlot := some ⟨.unsupportedWidth, 0#32⟩ }) ∧
  (∀ (s t : State) (i : Instr) (d : Word), exec i s = .next t → t.rspSlot = some ⟨.unsupportedWidth, d⟩ →
    ∃ w ri ro poly init xorout, i = .createGeneric w ri ro poly init xorout ∧
      ¬ (w.toNat = 8 ∨ w.toNat = 16 ∨ w.toNat = 24 ∨ w.toNat = 32)) ∧
  (∀ (s : State) (w : BitVec 8) (ri ro : Bool) (poly init xorout : Word), s.rstN = true → s.rspSlot = none →
    ¬ (w.toNat = 8 ∨ w.toNat = 16 ∨ w.toNat = 24 ∨ w.toNat = 32) →
    s.rxBuf = encode (.createGeneric w ri ro poly init xorout) →
    step s = .next { s with rspSlot := some ⟨.unsupportedWidth, 0#32⟩, cp := s.cp + 4, rxBuf := [] })

/-- R150: without a valid engine the six engine commands respond `DestroyedHandle` with data 0 and change nothing,
PROC and COMPUTE still consume their data words, and the three other commands never raise it. There is no valid
engine after DESTROY and after hardware reset, and the code is 2. -/
def Obligations.DestroyedHandleWithoutAValidEngine : Prop :=
  Status.destroyedHandle.code = 2#4 ∧ State.reset.ctx.valid = false ∧
  (∀ s t : State, exec .destroy s = .next t → t.ctx.valid = false) ∧
  (∀ (i : Instr) (s : State), needsEngine i = true → s.ctx.valid = false →
    exec i s = .next { s with rspSlot := some ⟨.destroyedHandle, 0#32⟩ }) ∧
  (∀ (i : Instr) (s : State), needsEngine i = true → s.ctx.valid = false → s.rstN = true → s.rspSlot = none →
    decode s.rxBuf = .instr i [] →
    step s = .next { s with rspSlot := some ⟨.destroyedHandle, 0#32⟩, cp := s.cp + s.rxBuf.length, rxBuf := [] }) ∧
  (∀ (i : Instr) (s t : State) (r : Response), exec i s = .next t → t.rspSlot = some r →
    r.status = .destroyedHandle → needsEngine i = true ∧ s.ctx.valid = false)

/-- RESET on a valid engine completes and reloads the register. -/
def Obligations.ResetReloadsTheRegister : Prop :=
  ∀ s : State, s.ctx.valid = true →
    exec .reset s = .next { s with
      ctx := { s.ctx with crcReg := loadValue s.ctx }, rspSlot := some ⟨.ok, 0#32⟩ }

/-- PROCB on a valid engine completes and makes one byte step. -/
def Obligations.ProcbMakesOneByteStep : Prop :=
  ∀ (b : Byte) (s : State), s.ctx.valid = true →
    exec (.procb b) s = .next { s with
      ctx := { s.ctx with crcReg := byteStep s.ctx s.ctx.crcReg b }, rspSlot := some ⟨.ok, 0#32⟩ }

/-- PROC on a valid engine completes and makes a byte step for each of its bytes, in order. -/
def Obligations.ProcStepsThroughItsBytes : Prop :=
  ∀ (cnt : BitVec 16) (data : List Word) (s : State), s.ctx.valid = true →
    exec (.proc cnt data) s = .next { s with
      ctx := { s.ctx with crcReg := (unpack cnt data).foldl (byteStep s.ctx) s.ctx.crcReg },
      rspSlot := some ⟨.ok, 0#32⟩ }

/-- CHKSUM on a valid engine completes, responds the checksum and writes nothing. -/
def Obligations.ChksumRespondsTheChecksum : Prop :=
  ∀ s : State, s.ctx.valid = true →
    exec .chksum s = .next { s with rspSlot := some ⟨.ok, checksum s.ctx s.ctx.crcReg⟩ }

/-- COMPUTE on a valid engine completes: it steps from the load value through its bytes, keeps the register it
reaches and responds its checksum. -/
def Obligations.ComputeRespondsTheChecksumOfItsBytes : Prop :=
  ∀ (cnt : BitVec 16) (data : List Word) (s : State), s.ctx.valid = true →
    exec (.compute cnt data) s = .next { s with
      ctx := { s.ctx with crcReg := (unpack cnt data).foldl (byteStep s.ctx) (loadValue s.ctx) },
      rspSlot := some ⟨.ok, checksum s.ctx ((unpack cnt data).foldl (byteStep s.ctx) (loadValue s.ctx))⟩ }

/-- DESTROY on a valid engine completes and clears `valid`. -/
def Obligations.DestroyClearsValid : Prop :=
  ∀ s : State, s.ctx.valid = true →
    exec .destroy s = .next { s with ctx := { s.ctx with valid := false }, rspSlot := some ⟨.ok, 0#32⟩ }

/-- REFL completes with the reflected value for a width up to 32 and responds `IllegalCommand` above, with or
without an engine. -/
def Obligations.ReflRespondsTheReflectedValue : Prop :=
  ∀ (n : BitVec 6) (v : Word) (s : State),
    (n.toNat ≤ 32 → ∃ d : Word, exec (.refl n v) s = .next { s with rspSlot := some ⟨.ok, d⟩ } ∧
      d.toNat = revNat v.toNat n.toNat) ∧
    (32 < n.toNat → exec (.refl n v) s = .next { s with rspSlot := some ⟨.illegalCommand, 0#32⟩ })

/-! ### Datapaths (40, 41, 42) -/

/-- R83 and R84: `rev` reverses the `n` low bits and gives no other. -/
def Obligations.RevReversesTheLowBits : Prop :=
  ∀ (v : Word) (n : Nat), n ≤ 32 →
    (rev v n).toNat = revNat v.toNat n ∧
    (∀ i, i < n → (rev v n).getLsbD (n - 1 - i) = v.getLsbD i) ∧
    (rev v n).toNat < 2 ^ n ∧ rev v n = rev (v &&& mask n) n

/-- R85: the laws of `rev`. -/
def Obligations.RevIsALinearInvolution : Prop :=
  ∀ (v u : Word) (n : Nat), n ≤ 32 →
    rev (rev v n) n = v &&& mask n ∧ rev v 0 = 0#32 ∧ rev v 1 = v &&& 1#32 ∧
    rev (v ^^^ u) n = rev v n ^^^ rev u n

/-- R93: the byte step is the pseudocode on natural numbers and its result is below `2^w`. -/
def Obligations.ByteStepIsTheBitSerialRecurrence : Prop :=
  ∀ (w : Nat) (poly reg : Word) (refin : Bool) (b : Byte), w ∈ Config.supportedWidths →
    reg.toNat < 2 ^ w →
    (gstep w poly refin reg b).toNat = gstepNat w poly.toNat refin reg.toNat b.toNat ∧
    (gstep w poly refin reg b).toNat < 2 ^ w

/-- R95: the checksum is the pseudocode on natural numbers and is below `2^w`. -/
def Obligations.ChecksumIsBelowTheWidth : Prop :=
  ∀ (w : Nat) (xorout reg : Word) (refout : Bool), w ∈ Config.supportedWidths →
    (gfinal w xorout refout reg).toNat = gfinalNat w xorout.toNat refout reg.toNat ∧
    (gfinal w xorout refout reg).toNat < 2 ^ w

/-- R100: a table entry is the same whether 8 iterations run from `i << (w - 8)` or `w` iterations from `i`. -/
def Obligations.TableEntryIsWidthIterations : Prop :=
  ∀ (a : Alg) (i : Byte),
    tn a i = gstep (catalogue a).width (catalogue a).poly false 0#32 i ∧
    tn a i = iterate (shiftXor (catalogue a).width (catalogue a).poly) (catalogue a).width (i.setWidth 32)

/-- R102: how the two tables are related, and which one the ROM holds. -/
def Obligations.ReflectedTableMirrorsTheNormalTable : Prop :=
  ∀ (a : Alg) (i : Byte),
    tr a i = rev (tn a ((rev (i.setWidth 32) 8).setWidth 8)) (catalogue a).width ∧
    rom a i = (if a = .ccitt then tn a i else tr a i) ∧ (rom a i).toNat < 2 ^ (catalogue a).width

/-- R109: one table step agrees with one bit-serial step. -/
def Obligations.TableStepAgreesWithTheBitSerialStep : Prop :=
  ∀ (a : Alg) (reg : Word) (b : Byte), reg.toNat < 2 ^ (catalogue a).width →
    ((catalogue a).refin = false →
      tstepN a reg b = gstep (catalogue a).width (catalogue a).poly false reg b) ∧
    ((catalogue a).refin = true →
      tstepR a (rev reg (catalogue a).width) b
        = rev (gstep (catalogue a).width (catalogue a).poly true reg b) (catalogue a).width)

/-- R110: table and generic engines give the same checksum for every input. -/
def Obligations.TableAndGenericChecksumsAgree : Prop :=
  ∀ (a : Alg) (s : List Byte),
    tfinal a (tproc a (treset a) s) =
      gfinal (catalogue a).width (catalogue a).xorout (catalogue a).refout
        (gproc (catalogue a).width (catalogue a).poly (catalogue a).refin (catalogue a).init s)

/-- R107: a table engine's checksum is its internal register XOR `xorout`, within the width. -/
def Obligations.TableChecksumIsTheInternalRegister : Prop :=
  ∀ c : Ctx, c.ok → c.valid = true → c.kind = .table →
    c.final = gfinal c.width c.xorout c.refout c.canon ∧
    c.final = tfinal c.alg c.crcReg ∧ c.final = (c.crcReg ^^^ c.xorout) &&& mask c.width

/-- R37 and R111: contexts that no command can tell apart stay so, and every step gives the same responses. -/
def Obligations.IndistinguishableContextsRespondAlike : Prop :=
  ∀ (s t : State) (d : Ctx), s.ctx.ok → d.ok → s.ctx.indistinguishable d → step s = .next t →
    ∃ d' : Ctx, step (s.setCtx d) = .next (t.setCtx d') ∧ t.ctx.indistinguishable d'

/-- A generic engine built with a catalogue entry's tuple is indistinguishable from the table engine of that
entry. -/
def Obligations.GenericTwinOfACatalogueEntry : Prop :=
  ∀ (a : Alg) (s t u : State) (w : BitVec 8), w.toNat = (catalogue a).width →
    exec (.createStandard a) s = .next t →
    exec (.createGeneric w (catalogue a).refin (catalogue a).refout (catalogue a).poly (catalogue a).init
      (catalogue a).xorout) s = .next u →
    t.ctx.kind = .table ∧ u.ctx.kind = .generic ∧ t.ctx.indistinguishable u.ctx ∧ t.rspSlot = u.rspSlot

/-! ### Data in the stream (20_memory.md) -/

/-- R46: byte `k` of the sequence. -/
def Obligations.BytesArePackedLowByteFirst : Prop :=
  (∀ (cnt : BitVec 16) (data : List Word), data.length = (cnt.toNat + 3) / 4 →
    (unpack cnt data).length = cnt.toNat ∧
    ∀ k, k < cnt.toNat → (unpack cnt data)[k]? = some (dataByte data k)) ∧
  unpack 4#16 [0x34333231#32] = [0x31#8, 0x32#8, 0x33#8, 0x34#8]

/-- R47: the padding bytes of PROC and COMPUTE affect neither state nor response, and CNT = 0 takes no data word. -/
def Obligations.PaddingBytesAreIgnored : Prop :=
  ∀ (cnt : BitVec 16) (d₁ d₂ : List Word) (s : State),
    d₁.length = (cnt.toNat + 3) / 4 → d₂.length = (cnt.toNat + 3) / 4 →
    (∀ k, k < cnt.toNat → dataByte d₁ k = dataByte d₂ k) →
    (cnt.toNat = 0 → d₁ = []) ∧
    exec (.proc cnt d₁) s = exec (.proc cnt d₂) s ∧ exec (.compute cnt d₁) s = exec (.compute cnt d₂) s

/-! ### The laws of 43_engine_interface.md section 3 -/

/-- R127: after RESET, CHKSUM gives the checksum of the empty input. -/
def Obligations.ResetGivesTheEmptyChecksum : Prop :=
  ∀ s : State, s.ctx.ok → s.ctx.valid = true →
    ∃ t u, exec .reset s = .next t ∧ exec .chksum t = .next u ∧
      u.rspSlot = some ⟨.ok, gfinal s.ctx.width s.ctx.xorout s.ctx.refout s.ctx.init⟩

/-- Two PROCs in a row are one PROC of the joined bytes, to the whole state and so to every later CHKSUM, and PROCB is
a one-byte PROC. The first half gives R128; the equality of contexts and the PROCB clause are R132, which the spec
marks as derived. -/
def Obligations.SplitInputEqualsWholeInput : Prop :=
  (∀ (s t u : State) (c₁ c₂ c₃ : BitVec 16) (d₁ d₂ d₃ : List Word),
    unpack c₃ d₃ = unpack c₁ d₁ ++ unpack c₂ d₂ →
    exec (.proc c₁ d₁) s = .next t → exec (.proc c₂ d₂) t = .next u → exec (.proc c₃ d₃) s = .next u) ∧
  (∀ (s : State) (b : Byte) (c : BitVec 16) (d : List Word), unpack c d = [b] →
    exec (.procb b) s = exec (.proc c d) s)

/-- R129: parameters wider than the width act as their masked values. -/
def Obligations.ParametersAreMaskedToTheWidth : Prop :=
  ∀ (s : State) (w : BitVec 8) (ri ro : Bool) (poly init xorout : Word),
    exec (.createGeneric w ri ro poly init xorout) s =
      exec (.createGeneric w ri ro (poly &&& mask w.toNat) (init &&& mask w.toNat) (xorout &&& mask w.toNat)) s

/-- R130 and R131: after a CHKSUM, the next CHKSUM gives the same response, directly after it or after any list of REFL,
CHKSUM and illegal commands, and PROC and PROCB compute what they would have computed without any of them. -/
def Obligations.ChksumIsARepeatableRead : Prop :=
  ∀ s t : State, exec .chksum s = .next t →
    (∀ v, exec .chksum t = .next v → v.rspSlot = t.rspSlot) ∧
    (∀ cs u v, runReads cs t u → exec .chksum u = .next v → v.rspSlot = t.rspSlot) ∧
    (∀ cs u, runReads cs t u →
      (∀ cnt data, exec (.proc cnt data) u = exec (.proc cnt data) s) ∧
      (∀ b, exec (.procb b) u = exec (.procb b) s))

/-- R133: COMPUTE is RESET, then PROC of the same bytes, then CHKSUM. -/
def Obligations.ComputeIsResetProcChksum : Prop :=
  ∀ (s t u v : State) (cnt : BitVec 16) (data : List Word),
    exec .reset s = .next t → exec (.proc cnt data) t = .next u → exec .chksum u = .next v →
    exec (.compute cnt data) s = .next v

/-- R134: the empty-input checksums of the catalogue. -/
def Obligations.EmptyInputChecksumsOfTheCatalogue : Prop :=
  ∀ (a : Alg) (s t : State), exec (.createStandard a) s = .next t →
    exec .chksum t = .next { t with rspSlot := some ⟨.ok,
      match a with | .crc16 => 0x0000#32 | .ccitt => 0xFFFF#32 | .xmodem => 0x0000#32 | .crc32 => 0x00000000#32⟩ }

/-- R146: the check values of the catalogue, and the registers after the check input. -/
def Obligations.CheckValuesOfTheCatalogue : Prop :=
  ∀ (a : Alg) (s t : State), exec (.createStandard a) s = .next t →
    ∃ u, exec (.compute 9#16 [0x34333231#32, 0x38373635#32, 0x00000039#32]) t = .next u ∧
      (u.rspSlot, u.ctx.crcReg, u.ctx.canon) = match a with
        | .crc16 => (some ⟨.ok, 0xBB3D#32⟩, 0xBB3D#32, 0xBCDD#32)
        | .ccitt => (some ⟨.ok, 0x29B1#32⟩, 0x29B1#32, 0x29B1#32)
        | .xmodem => (some ⟨.ok, 0x0C73#32⟩, 0x0C73#32, 0xCE30#32)
        | .crc32 => (some ⟨.ok, 0xCBF43926#32⟩, 0x340BC6D9#32, 0x9B63D02C#32)
end

