-- ==== Sys2Proof/Laws/Bits.lean ====
section
/-! SUPPORT. Bit-level laws: of the width mask, of bounds `< 2^w`, and of the bit reflector. Everything later is
proved bit by bit from these. -/

namespace Sys2Proof.Machine

/-! ### Bounds and the mask -/

theorem toNat_lt_of_bits {x : Word} {w : Nat} (h : ∀ i, w ≤ i → x.getLsbD i = false) : x.toNat < 2 ^ w :=
  Nat.lt_pow_two_of_testBit _ (fun i hi => by simpa [BitVec.getLsbD] using h i hi)

theorem bit_false_of_toNat_lt {x : Word} {w i : Nat} (h : x.toNat < 2 ^ w) (hi : w ≤ i) : x.getLsbD i = false := by
  simpa [BitVec.getLsbD] using
    Nat.testBit_lt_two_pow (Nat.lt_of_lt_of_le h (Nat.pow_le_pow_right (by decide) hi))

theorem toNat_lt_iff_bits {x : Word} {w : Nat} : x.toNat < 2 ^ w ↔ ∀ i, w ≤ i → x.getLsbD i = false :=
  ⟨fun h _ hi => bit_false_of_toNat_lt h hi, toNat_lt_of_bits⟩

theorem mask_getLsbD (w i : Nat) : (mask w).getLsbD i = (decide (i < 32) && decide (i < w)) := by
  simp [mask, BitVec.getLsbD_ofNat, Nat.testBit_two_pow_sub_one]

theorem and_mask_getLsbD (x : Word) (w i : Nat) : (x &&& mask w).getLsbD i = (x.getLsbD i && decide (i < w)) := by
  rw [BitVec.getLsbD_and, mask_getLsbD]
  by_cases hi : i < 32
  · simp [hi]
  · simp [BitVec.getLsbD_of_ge x i (by omega)]

theorem and_mask_lt (x : Word) (w : Nat) : (x &&& mask w).toNat < 2 ^ w :=
  toNat_lt_of_bits (fun i hi => by rw [and_mask_getLsbD]; simp; omega)

theorem and_mask_of_lt {x : Word} {w : Nat} (h : x.toNat < 2 ^ w) : x &&& mask w = x := by
  apply BitVec.eq_of_getLsbD_eq
  intro i _
  rw [and_mask_getLsbD]
  by_cases hi : i < w
  · simp [hi]
  · rw [bit_false_of_toNat_lt h (by omega)]; simp

theorem and_mask_and_mask (x : Word) (w : Nat) : (x &&& mask w) &&& mask w = x &&& mask w :=
  and_mask_of_lt (and_mask_lt x w)

theorem xor_and_mask (x y : Word) (w : Nat) : (x ^^^ y) &&& mask w = (x &&& mask w) ^^^ (y &&& mask w) := by
  apply BitVec.eq_of_getLsbD_eq
  intro i _
  simp only [and_mask_getLsbD, BitVec.getLsbD_xor]
  cases decide (i < w) <;> simp

theorem mask_toNat {w : Nat} (h : w ≤ 32) : (mask w).toNat = 2 ^ w - 1 := by
  have : 2 ^ w ≤ 2 ^ 32 := Nat.pow_le_pow_right (by decide) h
  have : 0 < 2 ^ w := Nat.two_pow_pos w
  simp only [mask, BitVec.toNat_ofNat]
  exact Nat.mod_eq_of_lt (by omega)

/-! ### The bit reflector -/

theorem rev_getLsbD (v : Word) {n : Nat} (hn : n ≤ 32) (i : Nat) :
    (rev v n).getLsbD i = (decide (i < n) && v.getLsbD (n - 1 - i)) := by
  induction n generalizing i with
  | zero => simp [rev]
  | succ n ih =>
    rw [rev, BitVec.getLsbD_or, BitVec.getLsbD_shiftLeft, ih (by omega), BitVec.getLsbD_setWidth]
    cases i with
    | zero => simp
    | succ i =>
      by_cases h : i < n
      · have h1 : n - 1 - i = n - (i + 1) := by omega
        have h2 : i + 1 < 32 := by omega
        simp [h, h1, h2]
      · simp [h]

theorem rev_lt (v : Word) {n : Nat} (hn : n ≤ 32) : (rev v n).toNat < 2 ^ n :=
  toNat_lt_of_bits (fun i hi => by rw [rev_getLsbD v hn]; simp; omega)

theorem rev_rev (v : Word) {n : Nat} (hn : n ≤ 32) : rev (rev v n) n = v &&& mask n := by
  apply BitVec.eq_of_getLsbD_eq
  intro i _
  rw [rev_getLsbD _ hn, rev_getLsbD _ hn, and_mask_getLsbD]
  by_cases h : i < n
  · have h1 : n - 1 - (n - 1 - i) = i := by omega
    have h2 : n - 1 - i < n := by omega
    simp [h, h1, h2]
  · simp [h]

theorem rev_rev_of_lt {v : Word} {n : Nat} (hn : n ≤ 32) (h : v.toNat < 2 ^ n) : rev (rev v n) n = v := by
  rw [rev_rev v hn, and_mask_of_lt h]

theorem rev_xor (v u : Word) {n : Nat} (hn : n ≤ 32) : rev (v ^^^ u) n = rev v n ^^^ rev u n := by
  apply BitVec.eq_of_getLsbD_eq
  intro i _
  simp only [rev_getLsbD _ hn, BitVec.getLsbD_xor]
  cases decide (i < n) <;> simp

theorem revByte_getLsbD (b : Byte) (i : Nat) : (revByte b).getLsbD i = (decide (i < 8) && b.getLsbD (7 - i)) := by
  simp only [revByte, BitVec.getLsbD_setWidth, rev_getLsbD _ (show 8 ≤ 32 by decide)]
  by_cases h : i < 8
  · have : 8 - 1 - i < 32 := by omega
    simp [h, this]
  · simp [h]

end Sys2Proof.Machine
end

