-- ==== Sys2Proof/Laws/Decode.lean ====
section
/-! SUPPORT. Laws of the opcode map, the length rule and the decoder. -/

namespace Sys2Proof

theorem hasAtLeast_iff {α : Type} (n : Nat) (l : List α) : hasAtLeast n l = true ↔ n ≤ l.length := by
  induction n generalizing l with
  | zero => simp [hasAtLeast]
  | succ n ih =>
    cases l with
    | nil => simp [hasAtLeast]
    | cons a l => simp [hasAtLeast, ih]

theorem hasAtLeast_eq_false_iff {α : Type} (n : Nat) (l : List α) : hasAtLeast n l = false ↔ l.length < n := by
  rw [← Bool.not_eq_true, hasAtLeast_iff]; omega

theorem commandLength_pos (cw : Word) : 1 ≤ commandLength cw := by
  rw [commandLength]; split <;> omega

theorem commandComplete_cons (cw : Word) (rest : List Word) :
    commandComplete (cw :: rest) = true ↔ commandLength cw ≤ rest.length + 1 := by
  rw [commandComplete, hasAtLeast_iff]; omega

theorem commandComplete_cons_false (cw : Word) (rest : List Word) :
    commandComplete (cw :: rest) = false ↔ rest.length + 1 < commandLength cw := by
  rw [← Bool.not_eq_true, commandComplete_cons]; omega

theorem dataWords_le (cnt : BitVec 16) : dataWords cnt ≤ 16384 := by
  have := cnt.isLt
  rw [dataWords]; omega

theorem commandLength_le (cw : Word) : commandLength cw ≤ 16385 := by
  rw [commandLength]
  split
  · decide
  · next op _ =>
    have := dataWords_le (cntField cw)
    cases op <;> simp only [operandWords] <;> omega

/-! ### Rows -/

theorem matchOp_eq_none_iff (cw : Word) : matchOp cw = none ↔ legal cw = false := by
  simp [matchOp, legal, List.find?_eq_none, List.any_eq_false]

theorem commandLength_of_illegal {cw : Word} (h : legal cw = false) : commandLength cw = 1 := by
  rw [commandLength, (matchOp_eq_none_iff cw).mpr h]

/-- The low four bits of a matching word are the row's, since every mask covers them (R71). -/
theorem opField_of_matches {cw : Word} {r : Row} (hr : r ∈ opcodeMap) (h : cw &&& r.mask = r.pattern) :
    opField cw = opField r.pattern := by
  have key : opField (cw &&& r.mask) = opField cw := by
    have hm : opField r.mask = 0xF#4 := by
      simp only [opcodeMap, List.mem_cons, List.not_mem_nil, or_false] at hr
      rcases hr with rfl | rfl | rfl | rfl | rfl | rfl | rfl | rfl | rfl <;> decide
    rw [opField, BitVec.extractLsb'_and]
    rw [opField] at hm
    rw [hm, show (0xF#4) = BitVec.allOnes 4 by decide, BitVec.and_allOnes, opField]
  rw [← key, h]

theorem row_eq_of_opField {r₁ r₂ : Row} (h₁ : r₁ ∈ opcodeMap) (h₂ : r₂ ∈ opcodeMap)
    (h : opField r₁.pattern = opField r₂.pattern) : r₁ = r₂ := by
  have : ∀ r₁ ∈ opcodeMap, ∀ r₂ ∈ opcodeMap, opField r₁.pattern = opField r₂.pattern → r₁ = r₂ := by decide
  exact this r₁ h₁ r₂ h₂ h

/-- The row of a word is the row it matches. -/
theorem matchOp_of_matches {cw : Word} {r : Row} (hr : r ∈ opcodeMap) (h : cw &&& r.mask = r.pattern) :
    matchOp cw = some r.op := by
  rw [matchOp]
  cases hf : opcodeMap.find? (·.matches cw) with
  | none => simp [List.find?_eq_none, Row.matches] at hf; exact absurd h (hf r hr)
  | some q =>
    have hq : cw &&& q.mask = q.pattern := by simpa [Row.matches] using List.find?_some hf
    have hqm := List.mem_of_find?_eq_some hf
    rw [row_eq_of_opField hqm hr ((opField_of_matches hqm hq).symm.trans (opField_of_matches hr h))]
    rfl

theorem matches_of_matchOp {cw : Word} {op : Op} (h : matchOp cw = some op) :
    ∃ r ∈ opcodeMap, r.op = op ∧ cw &&& r.mask = r.pattern := by
  rw [matchOp, Option.map_eq_some_iff] at h
  obtain ⟨r, hr, rfl⟩ := h
  exact ⟨r, List.mem_of_find?_eq_some hr, rfl, by simpa [Row.matches] using List.find?_some hr⟩

theorem legal_iff (cw : Word) : legal cw = true ↔ ∃ r ∈ opcodeMap, cw &&& r.mask = r.pattern := by
  simp [legal, List.any_eq_true, Row.matches]

/-! ### The decoder -/

/-- What `decode` answers on a legal command word with its operand words before it. -/
theorem decode_cons_of_matchOp {cw : Word} {op : Op} {ops : List Word} (h : matchOp cw = some op)
    (hl : ops.length = operandWords op cw) (rest : List Word) :
    decode (cw :: (ops ++ rest)) = .instr (assembleInstr op cw ops) rest := by
  have hal : hasAtLeast (operandWords op cw) (ops ++ rest) = true := by
    rw [hasAtLeast_iff, List.length_append]; omega
  rw [decode]
  simp only [h, hal, if_true]
  rw [← hl, List.take_left, List.drop_left]

/-- Inversion: whenever `decode` answers a command, it read a legal command word and its operand words. -/
theorem decode_instr_inv {ws rest : List Word} {i : Instr} (h : decode ws = .instr i rest) :
    ∃ cw op ops, ws = cw :: (ops ++ rest) ∧ matchOp cw = some op ∧ ops.length = operandWords op cw ∧
      i = assembleInstr op cw ops := by
  cases ws with
  | nil => simp [decode] at h
  | cons cw tl =>
    rw [decode] at h
    split at h
    · cases h
    · next op hop =>
      split at h
      · next hl =>
        rw [hasAtLeast_iff] at hl
        cases h
        exact ⟨cw, op, tl.take (operandWords op cw), by rw [List.take_append_drop], hop,
          by rw [List.length_take]; omega, rfl⟩
      · cases h

theorem decode_illegal_of {cw : Word} (h : legal cw = false) (rest : List Word) :
    decode (cw :: rest) = .illegal (illegalReason cw) rest := by
  rw [decode]; simp only [(matchOp_eq_none_iff cw).mpr h]

theorem decode_incomplete_iff (ws : List Word) : decode ws = .incomplete ↔ commandComplete ws = false := by
  cases ws with
  | nil => simp [decode, commandComplete]
  | cons cw rest =>
    rw [decode, commandComplete, commandLength]
    split
    · simp [hasAtLeast]
    · next op hop =>
      simp only [Nat.add_sub_cancel_left]
      cases hasAtLeast (operandWords op cw) rest <;> simp

end Sys2Proof
end

