-- ==== Sys2Proof/Laws/Generic.lean ====
section
/-! SUPPORT. Laws of the bit-serial datapath: one iteration bit by bit, its linearity, its bound, and what it does
to a register whose top bits are clear. -/

namespace Sys2Proof.Machine

/-! ### Iterating -/

theorem iterate_add (f : Word → Word) (m n : Nat) (r : Word) : iterate f (m + n) r = iterate f n (iterate f m r) := by
  induction m generalizing r with
  | zero => simp [iterate]
  | succ m ih => rw [Nat.add_right_comm, iterate, ih, iterate]

theorem iterate_xor {f : Word → Word} (hf : ∀ a b, f (a ^^^ b) = f a ^^^ f b) (n : Nat) (a b : Word) :
    iterate f n (a ^^^ b) = iterate f n a ^^^ iterate f n b := by
  induction n generalizing a b with
  | zero => rfl
  | succ n ih => rw [iterate, hf, ih, iterate, iterate]

theorem iterate_conj {f g σ : Word → Word} (h : ∀ r, σ (f r) = g (σ r)) (n : Nat) (r : Word) :
    σ (iterate f n r) = iterate g n (σ r) := by
  induction n generalizing r with
  | zero => rfl
  | succ n ih => rw [iterate, ih, h, iterate]

theorem iterate_zero_word {f : Word → Word} (hf : f 0#32 = 0#32) (n : Nat) : iterate f n 0#32 = 0#32 := by
  induction n with
  | zero => rfl
  | succ n ih => rw [iterate, hf, ih]

/-! ### One iteration -/

theorem shiftXor_getLsbD (w : Nat) (poly r : Word) (i : Nat) :
    (shiftXor w poly r).getLsbD i =
      (((decide (i < 32) && (decide (0 < i) && r.getLsbD (i - 1))) ^^ (r.getLsbD (w - 1) && poly.getLsbD i))
        && decide (i < w)) := by
  rw [shiftXor]
  split
  · next h =>
    rw [and_mask_getLsbD, BitVec.getLsbD_xor, BitVec.getLsbD_shiftLeft, h]
    cases i <;> simp
  · next h =>
    rw [and_mask_getLsbD, BitVec.getLsbD_shiftLeft]
    simp only [Bool.not_eq_true] at h
    cases i <;> simp [h]

theorem shiftXor_lt (w : Nat) (poly r : Word) : (shiftXor w poly r).toNat < 2 ^ w :=
  toNat_lt_of_bits (fun i hi => by rw [shiftXor_getLsbD]; simp; omega)

theorem shiftXor_xor (w : Nat) (poly a b : Word) :
    shiftXor w poly (a ^^^ b) = shiftXor w poly a ^^^ shiftXor w poly b := by
  apply BitVec.eq_of_getLsbD_eq
  intro i _
  simp only [shiftXor_getLsbD, BitVec.getLsbD_xor]
  cases decide (i < 32) <;> cases decide (0 < i) <;> cases decide (i < w) <;> cases poly.getLsbD i <;>
    cases a.getLsbD (w - 1) <;> cases b.getLsbD (w - 1) <;> simp

theorem shiftXor_zero (w : Nat) (poly : Word) : shiftXor w poly 0#32 = 0#32 := by
  simp [shiftXor]

theorem shiftXor_of_lt {w : Nat} (poly : Word) {r : Word} (hw : w ≤ 32) (h1 : 1 ≤ w)
    (h : r.toNat < 2 ^ (w - 1)) : shiftXor w poly r = r <<< 1 := by
  apply BitVec.eq_of_getLsbD_eq
  intro i hi
  rw [shiftXor_getLsbD, bit_false_of_toNat_lt h (Nat.le_refl _), BitVec.getLsbD_shiftLeft]
  by_cases hiw : i < w
  · cases i <;> simp [hiw]
  · have : r.getLsbD (i - 1) = false := bit_false_of_toNat_lt h (by omega)
    simp [hiw, this]

theorem shiftLeft_lt {r : Word} {k m : Nat} (h : r.toNat < 2 ^ m) : (r <<< k).toNat < 2 ^ (m + k) :=
  toNat_lt_of_bits (fun i hi => by
    rw [BitVec.getLsbD_shiftLeft, bit_false_of_toNat_lt h (show m ≤ i - k by omega)]; simp)

/-- Below the top `k` bits, `k` iterations only shift. -/
theorem iterate_shiftXor_of_lt {w : Nat} (poly : Word) (hw : w ≤ 32) (k : Nat) (hk : k ≤ w) (r : Word)
    (h : r.toNat < 2 ^ (w - k)) : iterate (shiftXor w poly) k r = r <<< k := by
  induction k generalizing r with
  | zero => simp [iterate]
  | succ k ih =>
    have hlt : r.toNat < 2 ^ (w - 1) :=
      Nat.lt_of_lt_of_le h (Nat.pow_le_pow_right (by decide) (by omega))
    have hs : (r <<< 1).toNat < 2 ^ (w - k) := by
      have := shiftLeft_lt (k := 1) h
      rwa [show w - (k + 1) + 1 = w - k by omega] at this
    rw [iterate, shiftXor_of_lt poly hw (by omega) hlt, ih (by omega) _ hs, ← BitVec.shiftLeft_add,
      Nat.add_comm 1 k]

theorem iterate_shiftXor_lt (w : Nat) (poly r : Word) (n : Nat) (h : r.toNat < 2 ^ w) :
    (iterate (shiftXor w poly) n r).toNat < 2 ^ w := by
  induction n generalizing r with
  | zero => exact h
  | succ n ih => rw [iterate]; exact ih _ (shiftXor_lt w poly r)

/-! ### The byte step -/

theorem gstep_lt (w : Nat) (poly : Word) (refin : Bool) (reg : Word) (b : Byte) :
    (gstep w poly refin reg b).toNat < 2 ^ w := by
  rw [gstep, show (8 : Nat) = 1 + 7 from rfl, iterate_add]
  exact iterate_shiftXor_lt w poly _ 7 (shiftXor_lt w poly _)

theorem gfinal_lt (w : Nat) (xorout : Word) (refout : Bool) (reg : Word) :
    (gfinal w xorout refout reg).toNat < 2 ^ w := and_mask_lt _ w

theorem gproc_append (w : Nat) (poly : Word) (refin : Bool) (reg : Word) (s t : List Byte) :
    gproc w poly refin reg (s ++ t) = gproc w poly refin (gproc w poly refin reg s) t := by
  induction s generalizing reg with
  | nil => rfl
  | cons b s ih => simp only [List.cons_append, gproc, ih]

end Sys2Proof.Machine
end

