-- ==== Sys2Proof/Laws/State.lean ====
section
/-! SUPPORT. One lemma per field per update of the context and the state, each true by unfolding, so that no later
proof opens a record update. -/

namespace Sys2Proof.Machine

/-! ### Ctx.setReg -/

@[simp] theorem setReg_valid (c : Ctx) (r : Word) : (c.setReg r).valid = c.valid := rfl
@[simp] theorem setReg_kind (c : Ctx) (r : Word) : (c.setReg r).kind = c.kind := rfl
@[simp] theorem setReg_alg (c : Ctx) (r : Word) : (c.setReg r).alg = c.alg := rfl
@[simp] theorem setReg_width (c : Ctx) (r : Word) : (c.setReg r).width = c.width := rfl
@[simp] theorem setReg_poly (c : Ctx) (r : Word) : (c.setReg r).poly = c.poly := rfl
@[simp] theorem setReg_init (c : Ctx) (r : Word) : (c.setReg r).init = c.init := rfl
@[simp] theorem setReg_xorout (c : Ctx) (r : Word) : (c.setReg r).xorout = c.xorout := rfl
@[simp] theorem setReg_refin (c : Ctx) (r : Word) : (c.setReg r).refin = c.refin := rfl
@[simp] theorem setReg_refout (c : Ctx) (r : Word) : (c.setReg r).refout = c.refout := rfl
@[simp] theorem setReg_crcReg (c : Ctx) (r : Word) : (c.setReg r).crcReg = r := rfl
@[simp] theorem setReg_setReg (c : Ctx) (r q : Word) : (c.setReg r).setReg q = c.setReg q := rfl
@[simp] theorem setReg_resetVal (c : Ctx) (r : Word) : (c.setReg r).resetVal = c.resetVal := rfl

/-! ### State.setCtx -/

@[simp] theorem setCtx_ctx (s : State) (c : Ctx) : (s.setCtx c).ctx = c := rfl
@[simp] theorem setCtx_cp (s : State) (c : Ctx) : (s.setCtx c).cp = s.cp := rfl
@[simp] theorem setCtx_rxBuf (s : State) (c : Ctx) : (s.setCtx c).rxBuf = s.rxBuf := rfl
@[simp] theorem setCtx_rspSlot (s : State) (c : Ctx) : (s.setCtx c).rspSlot = s.rspSlot := rfl
@[simp] theorem setCtx_rstN (s : State) (c : Ctx) : (s.setCtx c).rstN = s.rstN := rfl
@[simp] theorem setCtx_rspReady (s : State) (c : Ctx) : (s.setCtx c).rspReady = s.rspReady := rfl
@[simp] theorem setCtx_cmdIn (s : State) (c : Ctx) : (s.setCtx c).cmdIn = s.cmdIn := rfl
@[simp] theorem setCtx_rspOut (s : State) (c : Ctx) : (s.setCtx c).rspOut = s.rspOut := rfl
@[simp] theorem setCtx_setCtx (s : State) (c d : Ctx) : (s.setCtx c).setCtx d = s.setCtx d := rfl
@[simp] theorem setCtx_self (s : State) : s.setCtx s.ctx = s := rfl

/-! ### State.respond -/

@[simp] theorem respond_ctx (s : State) (e : Status) (d : Word) : (s.respond e d).ctx = s.ctx := rfl
@[simp] theorem respond_cp (s : State) (e : Status) (d : Word) : (s.respond e d).cp = s.cp := rfl
@[simp] theorem respond_rxBuf (s : State) (e : Status) (d : Word) : (s.respond e d).rxBuf = s.rxBuf := rfl
@[simp] theorem respond_rspSlot (s : State) (e : Status) (d : Word) : (s.respond e d).rspSlot = some ⟨e, d⟩ := rfl
@[simp] theorem respond_rstN (s : State) (e : Status) (d : Word) : (s.respond e d).rstN = s.rstN := rfl
@[simp] theorem respond_rspReady (s : State) (e : Status) (d : Word) : (s.respond e d).rspReady = s.rspReady := rfl
@[simp] theorem respond_cmdIn (s : State) (e : Status) (d : Word) : (s.respond e d).cmdIn = s.cmdIn := rfl
@[simp] theorem respond_rspOut (s : State) (e : Status) (d : Word) : (s.respond e d).rspOut = s.rspOut := rfl

/-! ### State.retire -/

@[simp] theorem retire_ctx (s : State) (n : Nat) : (s.retire n).ctx = s.ctx := rfl
@[simp] theorem retire_cp (s : State) (n : Nat) : (s.retire n).cp = s.cp + n := rfl
@[simp] theorem retire_rxBuf (s : State) (n : Nat) : (s.retire n).rxBuf = [] := rfl
@[simp] theorem retire_rspSlot (s : State) (n : Nat) : (s.retire n).rspSlot = s.rspSlot := rfl
@[simp] theorem retire_rstN (s : State) (n : Nat) : (s.retire n).rstN = s.rstN := rfl
@[simp] theorem retire_rspReady (s : State) (n : Nat) : (s.retire n).rspReady = s.rspReady := rfl
@[simp] theorem retire_cmdIn (s : State) (n : Nat) : (s.retire n).cmdIn = s.cmdIn := rfl
@[simp] theorem retire_rspOut (s : State) (n : Nat) : (s.retire n).rspOut = s.rspOut := rfl

/-! ### State.hardwareReset -/

@[simp] theorem hardwareReset_ctx (s : State) : s.hardwareReset.ctx = Ctx.zero := rfl
@[simp] theorem hardwareReset_cp (s : State) : s.hardwareReset.cp = 0 := rfl
@[simp] theorem hardwareReset_rxBuf (s : State) : s.hardwareReset.rxBuf = [] := rfl
@[simp] theorem hardwareReset_rspSlot (s : State) : s.hardwareReset.rspSlot = none := rfl
@[simp] theorem hardwareReset_rstN (s : State) : s.hardwareReset.rstN = s.rstN := rfl
@[simp] theorem hardwareReset_rspReady (s : State) : s.hardwareReset.rspReady = s.rspReady := rfl
@[simp] theorem hardwareReset_cmdIn (s : State) : s.hardwareReset.cmdIn = s.cmdIn := rfl
@[simp] theorem hardwareReset_rspOut (s : State) : s.hardwareReset.rspOut = s.rspOut := rfl

/-! ### The host's moves -/

@[simp] theorem send_ctx (s : State) (ws : List Word) : (s.send ws).ctx = s.ctx := rfl
@[simp] theorem send_cp (s : State) (ws : List Word) : (s.send ws).cp = s.cp := rfl
@[simp] theorem send_rxBuf (s : State) (ws : List Word) : (s.send ws).rxBuf = s.rxBuf := rfl
@[simp] theorem send_rspSlot (s : State) (ws : List Word) : (s.send ws).rspSlot = s.rspSlot := rfl
@[simp] theorem send_rstN (s : State) (ws : List Word) : (s.send ws).rstN = s.rstN := rfl
@[simp] theorem send_rspReady (s : State) (ws : List Word) : (s.send ws).rspReady = s.rspReady := rfl
@[simp] theorem send_cmdIn (s : State) (ws : List Word) : (s.send ws).cmdIn = s.cmdIn ++ ws := rfl
@[simp] theorem send_rspOut (s : State) (ws : List Word) : (s.send ws).rspOut = s.rspOut := rfl
@[simp] theorem offer_ctx (s : State) (ws : List Word) : (s.offer ws).ctx = s.ctx := rfl
@[simp] theorem offer_cp (s : State) (ws : List Word) : (s.offer ws).cp = s.cp := rfl
@[simp] theorem offer_rxBuf (s : State) (ws : List Word) : (s.offer ws).rxBuf = s.rxBuf := rfl
@[simp] theorem offer_rspSlot (s : State) (ws : List Word) : (s.offer ws).rspSlot = s.rspSlot := rfl
@[simp] theorem offer_rstN (s : State) (ws : List Word) : (s.offer ws).rstN = s.rstN := rfl
@[simp] theorem offer_rspReady (s : State) (ws : List Word) : (s.offer ws).rspReady = s.rspReady := rfl
@[simp] theorem offer_cmdIn (s : State) (ws : List Word) : (s.offer ws).cmdIn = ws := rfl
@[simp] theorem offer_rspOut (s : State) (ws : List Word) : (s.offer ws).rspOut = s.rspOut := rfl
@[simp] theorem withdraw_cmdIn (s : State) : s.withdraw.cmdIn = [] := rfl
@[simp] theorem changeWord_cmdIn (s : State) (w : Word) : (s.changeWord w).cmdIn = w :: s.cmdIn.drop 1 := rfl
@[simp] theorem offer_offer (s : State) (vs ws : List Word) : (s.offer vs).offer ws = s.offer ws := rfl
@[simp] theorem driveRstN_cp (s : State) (b : Bool) : (s.driveRstN b).cp = s.cp := rfl
@[simp] theorem driveRstN_rxBuf (s : State) (b : Bool) : (s.driveRstN b).rxBuf = s.rxBuf := rfl
@[simp] theorem driveRstN_rspSlot (s : State) (b : Bool) : (s.driveRstN b).rspSlot = s.rspSlot := rfl
@[simp] theorem driveRstN_rspReady (s : State) (b : Bool) : (s.driveRstN b).rspReady = s.rspReady := rfl
@[simp] theorem driveRstN_cmdIn (s : State) (b : Bool) : (s.driveRstN b).cmdIn = s.cmdIn := rfl
@[simp] theorem driveRstN_rspOut (s : State) (b : Bool) : (s.driveRstN b).rspOut = s.rspOut := rfl
@[simp] theorem driveRspReady_cp (s : State) (b : Bool) : (s.driveRspReady b).cp = s.cp := rfl
@[simp] theorem driveRspReady_rxBuf (s : State) (b : Bool) : (s.driveRspReady b).rxBuf = s.rxBuf := rfl
@[simp] theorem driveRspReady_rspSlot (s : State) (b : Bool) : (s.driveRspReady b).rspSlot = s.rspSlot := rfl
@[simp] theorem driveRspReady_rstN (s : State) (b : Bool) : (s.driveRspReady b).rstN = s.rstN := rfl
@[simp] theorem driveRspReady_cmdIn (s : State) (b : Bool) : (s.driveRspReady b).cmdIn = s.cmdIn := rfl
@[simp] theorem driveRspReady_rspOut (s : State) (b : Bool) : (s.driveRspReady b).rspOut = s.rspOut := rfl
@[simp] theorem driveRstN_rstN (s : State) (b : Bool) : (s.driveRstN b).rstN = b := rfl
@[simp] theorem driveRstN_ctx (s : State) (b : Bool) : (s.driveRstN b).ctx = s.ctx := rfl
@[simp] theorem driveRspReady_rspReady (s : State) (b : Bool) : (s.driveRspReady b).rspReady = b := rfl
@[simp] theorem driveRspReady_ctx (s : State) (b : Bool) : (s.driveRspReady b).ctx = s.ctx := rfl

end Sys2Proof.Machine
end

