-- ==== Sys2Proof/Laws/Ops.lean ====
section
/-! SUPPORT. What the shared operations and the step do, said once: every command answers a next state that
differs in the context and the response slot only, and a step is one of four events. -/

namespace Sys2Proof.Machine

/-! ### The shared operations -/

theorem engineCommand_of_valid {s : State} (h : s.ctx.valid = true) (c : Ctx) (d : Word) :
    engineCommand s c d = .next ((s.setCtx c).respond .ok d) := by simp [engineCommand, h, complete]

theorem engineCommand_of_invalid {s : State} (h : s.ctx.valid = false) (c : Ctx) (d : Word) :
    engineCommand s c d = .next (s.respond .destroyedHandle 0#32) := by simp [engineCommand, h, raise]

/-- Processing bytes changes the register only, to the fold of the byte step. -/
theorem process_eq (c : Ctx) (s : List Byte) :
    c.process s = c.setReg (s.foldl (fun r b => (c.setReg r).stepByte b) c.crcReg) := by
  induction s generalizing c with
  | nil => rfl
  | cons b s ih => rw [Ctx.process, ih]; rfl

theorem process_append (c : Ctx) (s t : List Byte) : c.process (s ++ t) = (c.process s).process t := by
  induction s generalizing c with
  | nil => rfl
  | cons b s ih => rw [List.cons_append, Ctx.process, ih, Ctx.process]

@[simp] theorem process_valid (c : Ctx) (s : List Byte) : (c.process s).valid = c.valid := by rw [process_eq]; rfl
@[simp] theorem process_width (c : Ctx) (s : List Byte) : (c.process s).width = c.width := by rw [process_eq]; rfl
@[simp] theorem process_params (c : Ctx) (s : List Byte) : (c.process s).params = c.params := by
  rw [process_eq]; rfl

/-! ### Commands -/

/-- Every command answers a next state in which at most the context and the response slot are new. -/
theorem exec_shape (i : Instr) (s : State) :
    ∃ c r, exec i s = .next { s with ctx := c, rspSlot := some r } := by
  have eng : ∀ c d, ∃ c' r, engineCommand s c d = .next { s with ctx := c', rspSlot := some r } := by
    intro c d
    by_cases h : s.ctx.valid = true
    · exact ⟨c, ⟨.ok, d⟩, engineCommand_of_valid h c d⟩
    · exact ⟨s.ctx, ⟨.destroyedHandle, 0#32⟩, engineCommand_of_invalid (by simpa using h) c d⟩
  cases i with
  | createGeneric w ri ro poly init xorout =>
    simp only [exec, execCreateGeneric]
    split
    · exact ⟨_, _, rfl⟩
    · exact ⟨s.ctx, _, rfl⟩
  | createStandard a => exact ⟨_, _, rfl⟩
  | reset => exact eng _ _
  | chksum => exact eng _ _
  | procb b => exact eng _ _
  | proc cnt data => exact eng _ _
  | destroy => exact eng _ _
  | compute cnt data => exact eng _ _
  | refl n v =>
    simp only [exec, execRefl]
    split
    · exact ⟨s.ctx, _, rfl⟩
    · exact ⟨s.ctx, _, rfl⟩

/-- What a command does to the context and what it responds depend on the context alone. -/
theorem exec_of_ctx_eq (i : Instr) {s s' t : State} (hc : s'.ctx = s.ctx) (h : exec i s = .next t) :
    exec i s' = .next { s' with ctx := t.ctx, rspSlot := t.rspSlot } := by
  have eng : ∀ f : Ctx → Ctx × Word, engineCommand s (f s.ctx).1 (f s.ctx).2 = .next t →
      engineCommand s' (f s'.ctx).1 (f s'.ctx).2 = .next { s' with ctx := t.ctx, rspSlot := t.rspSlot } := by
    intro f hf
    by_cases hv : s.ctx.valid = true
    · rw [engineCommand_of_valid hv] at hf
      rw [engineCommand_of_valid (by rw [hc]; exact hv), hc]
      cases hf; rfl
    · simp only [Bool.not_eq_true] at hv
      rw [engineCommand_of_invalid hv] at hf
      rw [engineCommand_of_invalid (by rw [hc]; exact hv)]
      cases hf; simp only [State.respond, ← hc]
  cases i with
  | createGeneric w ri ro poly init xorout =>
    simp only [exec, execCreateGeneric] at h ⊢
    split at h
    · next hw => cases h; rw [if_pos hw]; rfl
    · next hw => cases h; rw [if_neg hw, raise]; simp only [State.respond, ← hc]
  | createStandard a => cases h; rfl
  | reset => exact eng (fun c => (c.reload, 0#32)) h
  | chksum => exact eng (fun c => (c, c.final)) h
  | procb b => exact eng (fun c => (c.process [b], 0#32)) h
  | proc cnt data => exact eng (fun c => (c.process (unpack cnt data), 0#32)) h
  | destroy => exact eng (fun c => ({ c with valid := false }, 0#32)) h
  | compute cnt data =>
    exact eng (fun c => (c.reload.process (unpack cnt data), (c.reload.process (unpack cnt data)).final)) h
  | refl n v =>
    simp only [exec, execRefl] at h ⊢
    split at h
    · next hn => cases h; rw [if_pos hn]; simp only [complete, State.respond, State.setCtx, ← hc]
    · next hn => cases h; rw [if_neg hn, raise]; simp only [State.respond, ← hc]

/-! ### Phases -/

theorem phase_inReset {s : State} (h : s.rstN = false) : s.phase = .inReset := by simp [State.phase, h]

theorem phase_responding {s : State} {r : Response} (h : s.rstN = true) (hr : s.rspSlot = some r) :
    s.phase = .responding := by simp [State.phase, h, hr]

theorem phase_executing {s : State} (h : s.rstN = true) (hr : s.rspSlot = none)
    (hc : commandComplete s.rxBuf = true) : s.phase = .executing := by simp [State.phase, h, hr, hc]

theorem phase_receiving {s : State} (h : s.rstN = true) (hr : s.rspSlot = none)
    (hc : commandComplete s.rxBuf = false) : s.phase = .receiving := by simp [State.phase, h, hr, hc]

/-- What the block does next does not depend on what the host offers. -/
@[simp] theorem phase_offer (s : State) (ws : List Word) : (s.offer ws).phase = s.phase := rfl

/-! ### The step -/

theorem step_inReset {s : State} (h : s.rstN = false) : step s = .next s.hardwareReset := by
  simp [step, phase_inReset h]

theorem step_responding {s : State} {r : Response} (h : s.rstN = true) (hr : s.rspSlot = some r) :
    step s = .next (if s.rspReady = true then { s with rspSlot := none, rspOut := s.rspOut ++ [r] } else s) := by
  simp only [step, phase_responding h hr, State.offerResponse, hr]
  cases s.rspReady <;> rfl

theorem step_receiving {s : State} (h : s.rstN = true) (hr : s.rspSlot = none)
    (hc : commandComplete s.rxBuf = false) : step s = .next s.receiveWord := by
  simp [step, phase_receiving h hr hc]

theorem step_executing {s : State} (h : s.rstN = true) (hr : s.rspSlot = none)
    (hc : commandComplete s.rxBuf = true) : step s = runCommand s := by
  simp [step, phase_executing h hr hc]

/-- Running the buffered command: an illegal word or a decoded command, then the bookkeeping. -/
theorem runCommand_cases {s : State} (hc : commandComplete s.rxBuf = true) :
    ∃ t, runCommand s = .next (t.retire (commandWords s.rxBuf)) ∧
      ((∃ why rest, decode s.rxBuf = .illegal why rest ∧ t = s.respond .illegalCommand 0#32) ∨
        ∃ i rest, decode s.rxBuf = .instr i rest ∧ exec i s = .next t) := by
  rw [runCommand]
  cases hd : decode s.rxBuf with
  | instr i rest =>
    obtain ⟨c, r, he⟩ := exec_shape i s
    exact ⟨_, by simp only [he, mapNext], .inr ⟨i, rest, rfl, he⟩⟩
  | illegal why rest => exact ⟨_, rfl, .inl ⟨why, rest, rfl, rfl⟩⟩
  | incomplete => rw [decode_incomplete_iff] at hd; rw [hd] at hc; cases hc

/-- A step is one of four events, with everything each of them does. -/
theorem step_cases {s t : State} (h : step s = .next t) :
    (s.rstN = false ∧ t = s.hardwareReset) ∨
    (s.rstN = true ∧ (∃ r, s.rspSlot = some r ∧
      t = if s.rspReady = true then { s with rspSlot := none, rspOut := s.rspOut ++ [r] } else s)) ∨
    (s.rstN = true ∧ s.rspSlot = none ∧ commandComplete s.rxBuf = false ∧ t = s.receiveWord) ∨
    (s.rstN = true ∧ s.rspSlot = none ∧ commandComplete s.rxBuf = true ∧
      ∃ u, t = u.retire (commandWords s.rxBuf) ∧
        ((∃ why rest, decode s.rxBuf = .illegal why rest ∧ u = s.respond .illegalCommand 0#32) ∨
          ∃ i rest, decode s.rxBuf = .instr i rest ∧ exec i s = .next u)) := by
  by_cases hr : s.rstN = true
  · rcases Option.eq_none_or_eq_some s.rspSlot with hs | ⟨r, hs⟩
    · by_cases hc : commandComplete s.rxBuf = true
      · rw [step_executing hr hs hc] at h
        obtain ⟨u, hu, hcases⟩ := runCommand_cases hc
        rw [hu] at h
        exact .inr (.inr (.inr ⟨hr, hs, hc, u, by cases h; rfl, hcases⟩))
      · simp only [Bool.not_eq_true] at hc
        rw [step_receiving hr hs hc] at h
        exact .inr (.inr (.inl ⟨hr, hs, hc, by cases h; rfl⟩))
    · rw [step_responding hr hs] at h
      exact .inr (.inl ⟨hr, r, hs, by injection h with h; exact h.symm⟩)
  · simp only [Bool.not_eq_true] at hr
    rw [step_inReset hr] at h
    exact .inl ⟨hr, by cases h; rfl⟩

/-- A run takes its first step first. -/
theorem run_succ (M : Host.Core) (n : Nat) (s t : M.State) (h : M.step s = .next t) :
    M.run (n + 1) s = M.run n t := by rw [Host.Core.run, h]

end Sys2Proof.Machine
end

