-- ==== Sys2Proof/Laws/PerInstr.lean ====
section
/-! SUPPORT. Laws stated for each command as syntax, one lemma per constructor. The family `CommandWord` says that
a command's word is legal under the command's own opcode, and that its length counts the operand words. -/

namespace Sys2Proof.Laws.CommandWord

/-- The command word of `i` is read as `i`'s opcode, and a well-formed `i` is as long as its command word says. -/
def Statement (i : Instr) : Prop :=
  matchOp (commandWord i) = some i.op ∧
    (i.wf = true → (operandList i).length = operandWords i.op (commandWord i))

/-- A word whose bits are given as a pattern with free fields matches its row when its masked value does. -/
theorem matchOp_of_row (cw : Word) (r : Row) (hr : r ∈ opcodeMap) (h : cw &&& r.mask = r.pattern) :
    matchOp cw = some r.op := matchOp_of_matches hr h

theorem and_eq_of_bits {x m p : Word} (h : ∀ i, i < 32 → (x.getLsbD i && m.getLsbD i) = p.getLsbD i) :
    x &&& m = p := by
  apply BitVec.eq_of_getLsbD_eq
  intro i hi
  rw [BitVec.getLsbD_and, h i hi]

theorem createGeneric (w : BitVec 8) (ri ro : Bool) (poly init xorout : Word) :
    Statement (.createGeneric w ri ro poly init xorout) := by
  refine ⟨matchOp_of_row _ ⟨.createGeneric, 0x00000001#32, 0xFFFC00FF#32⟩ (by decide) ?_, fun _ => rfl⟩
  simp only [commandWord]
  apply and_eq_of_bits
  intro i hi
  rw [BitVec.getLsbD_append, BitVec.getLsbD_append, BitVec.getLsbD_append, BitVec.getLsbD_append]
  interval_cases i <;> simp

theorem createStandard (alg : Alg) : Statement (.createStandard alg) := by
  cases alg <;> exact ⟨by decide, by decide⟩

theorem reset : Statement .reset := ⟨by decide, by decide⟩

theorem chksum : Statement .chksum := ⟨by decide, by decide⟩

theorem procb (b : Byte) : Statement (.procb b) := by
  refine ⟨matchOp_of_row _ ⟨.procb, 0x00000005#32, 0xFFFF00FF#32⟩ (by decide) ?_, fun _ => rfl⟩
  simp only [commandWord]
  apply and_eq_of_bits
  intro i hi
  rw [BitVec.getLsbD_append, BitVec.getLsbD_append]
  interval_cases i <;> simp

theorem cntField_append (cnt low : BitVec 16) : cntField (cnt ++ low) = cnt := by
  apply BitVec.eq_of_getLsbD_eq
  intro i hi
  rw [cntField, BitVec.getLsbD_extractLsb', BitVec.getLsbD_append]
  simp [hi]

theorem proc (cnt : BitVec 16) (data : List Word) : Statement (.proc cnt data) := by
  refine ⟨matchOp_of_row _ ⟨.proc, 0x00000006#32, 0x0000FFFF#32⟩ (by decide) ?_, fun h => ?_⟩
  · simp only [commandWord]
    apply and_eq_of_bits
    intro i hi
    rw [BitVec.getLsbD_append]
    interval_cases i <;> simp
  · simp only [Instr.wf, beq_iff_eq] at h
    rw [commandWord, Instr.op, operandWords, cntField_append]
    exact h

theorem destroy : Statement .destroy := ⟨by decide, by decide⟩

theorem compute (cnt : BitVec 16) (data : List Word) : Statement (.compute cnt data) := by
  refine ⟨matchOp_of_row _ ⟨.compute, 0x00000008#32, 0x0000FFFF#32⟩ (by decide) ?_, fun h => ?_⟩
  · simp only [commandWord]
    apply and_eq_of_bits
    intro i hi
    rw [BitVec.getLsbD_append]
    interval_cases i <;> simp
  · simp only [Instr.wf, beq_iff_eq] at h
    rw [commandWord, Instr.op, operandWords, cntField_append]
    exact h

theorem refl (n : BitVec 6) (value : Word) : Statement (.refl n value) := by
  refine ⟨matchOp_of_row _ ⟨.refl, 0x00000009#32, 0xFFFFC0FF#32⟩ (by decide) ?_, fun _ => rfl⟩
  simp only [commandWord]
  apply and_eq_of_bits
  intro i hi
  rw [BitVec.getLsbD_append, BitVec.getLsbD_append]
  interval_cases i <;> simp

end Sys2Proof.Laws.CommandWord
end

