-- ==== Sys2Proof/Laws/Table.lean ====
section
/-! SUPPORT. Laws of the table datapath: the reflected recurrence is the bit-serial one seen through `rev`, both
are linear, and so a byte step splits into a shift and one table entry. -/

namespace Sys2Proof.Machine

theorem shiftXorLsb_getLsbD (rpoly c : Word) (i : Nat) :
    (shiftXorLsb rpoly c).getLsbD i = (c.getLsbD (i + 1) ^^ (c.getLsbD 0 && rpoly.getLsbD i)) := by
  rw [shiftXorLsb]
  split
  · next h => rw [BitVec.getLsbD_xor, BitVec.getLsbD_ushiftRight, h, Bool.true_and, Nat.add_comm]
  · next h =>
    simp only [Bool.not_eq_true] at h
    rw [BitVec.getLsbD_ushiftRight, h, Bool.false_and, Bool.xor_false, Nat.add_comm]

theorem shiftXorLsb_xor (rpoly a b : Word) :
    shiftXorLsb rpoly (a ^^^ b) = shiftXorLsb rpoly a ^^^ shiftXorLsb rpoly b := by
  apply BitVec.eq_of_getLsbD_eq
  intro i _
  simp only [shiftXorLsb_getLsbD, BitVec.getLsbD_xor]
  cases rpoly.getLsbD i <;> cases a.getLsbD 0 <;> cases b.getLsbD 0 <;> simp

/-- Mirroring turns one iteration of the bit-serial recurrence into one of the reflected recurrence. -/
theorem rev_shiftXor {w : Nat} (hw : w ≤ 32) (h1 : 1 ≤ w) (poly r : Word) :
    rev (shiftXor w poly r) w = shiftXorLsb (rev poly w) (rev r w) := by
  apply BitVec.eq_of_getLsbD_eq
  intro i _
  simp only [shiftXorLsb_getLsbD, rev_getLsbD _ hw, shiftXor_getLsbD]
  by_cases hi : i < w
  · have e1 : w - 1 - i < 32 := by omega
    have e2 : w - 1 - i < w := by omega
    have e4 : (0 < w - 1 - i) = (i + 1 < w) := by simp; omega
    have e5 : w - 1 - i - 1 = w - 1 - (i + 1) := by omega
    have e6 : 0 < w := by omega
    simp [hi, e1, e2, e4, e5, e6]
  · have : ¬ (i + 1 < w) := by omega
    simp [hi, this]

theorem rev_iterate_shiftXor {w : Nat} (hw : w ≤ 32) (h1 : 1 ≤ w) (poly r : Word) (n : Nat) :
    rev (iterate (shiftXor w poly) n r) w = iterate (shiftXorLsb (rev poly w)) n (rev r w) :=
  iterate_conj (σ := fun x => rev x w) (rev_shiftXor hw h1 poly) n r

/-- Mirroring turns the fold of a reflected byte into the fold of the raw byte at the low end. -/
theorem rev_fold {w : Nat} (hw : w ≤ 32) (h8 : 8 ≤ w) (reg : Word) (b : Byte) :
    rev (fold w reg (revByte b)) w = rev reg w ^^^ b.setWidth 32 := by
  apply BitVec.eq_of_getLsbD_eq
  intro i hi
  rw [rev_getLsbD _ hw, fold, BitVec.getLsbD_xor, BitVec.getLsbD_xor, rev_getLsbD _ hw,
    BitVec.getLsbD_shiftLeft, BitVec.getLsbD_setWidth, BitVec.getLsbD_setWidth, revByte_getLsbD]
  by_cases h : i < 8
  · have e1 : i < w := by omega
    have e2 : w - 1 - i < 32 := by omega
    have e3 : ¬ (w - 1 - i < w - 8) := by omega
    have e4 : w - 1 - i - (w - 8) < 32 := by omega
    have e5 : w - 1 - i - (w - 8) < 8 := by omega
    have e6 : 7 - (w - 1 - i - (w - 8)) = i := by omega
    simp [e1, e2, e3, e4, e5, e6, hi]
  · have eb : b.getLsbD i = false := BitVec.getLsbD_of_ge b i (by omega)
    by_cases e1 : i < w
    · have e3 : w - 1 - i < w - 8 := by omega
      simp [e1, e3, eb]
    · simp [e1, eb]

/-- A register whose low `k` bits are clear is only shifted by `k` iterations of the reflected recurrence. -/
theorem iterate_shiftXorLsb_high (rpoly : Word) (k : Nat) (c : Word) (h : ∀ i, i < k → c.getLsbD i = false) :
    iterate (shiftXorLsb rpoly) k c = c >>> k := by
  induction k generalizing c with
  | zero => simp [iterate]
  | succ k ih =>
    have h0 : shiftXorLsb rpoly c = c >>> 1 := by
      rw [shiftXorLsb, h 0 (by omega), if_neg (by decide)]
    rw [iterate, h0, ih, ← BitVec.shiftRight_add, Nat.add_comm 1 k]
    intro i hi
    rw [BitVec.getLsbD_ushiftRight]
    exact h _ (by omega)

/-- Eight iterations of the reflected recurrence are one shift and one table entry (the low byte's). -/
theorem iterate_shiftXorLsb_byte (rpoly c : Word) :
    iterate (shiftXorLsb rpoly) 8 c =
      (c >>> 8) ^^^ iterate (shiftXorLsb rpoly) 8 ((c.setWidth 8).setWidth 32) := by
  have split : c = ((c >>> 8) <<< 8) ^^^ ((c.setWidth 8).setWidth 32) := by
    apply BitVec.eq_of_getLsbD_eq
    intro i hi
    simp only [BitVec.getLsbD_xor, BitVec.getLsbD_shiftLeft, BitVec.getLsbD_ushiftRight, BitVec.getLsbD_setWidth]
    by_cases h8 : i < 8
    · simp [h8, hi]
    · have : 8 + (i - 8) = i := by omega
      simp [h8, hi, this]
  have high : ((c >>> 8) <<< 8) >>> 8 = c >>> 8 := by
    apply BitVec.eq_of_getLsbD_eq
    intro i _
    simp only [BitVec.getLsbD_ushiftRight, BitVec.getLsbD_shiftLeft]
    by_cases h : 8 + i < 32
    · simp [h]
    · rw [BitVec.getLsbD_of_ge c (8 + i) (by omega)]; simp [h]
  conv => lhs; rw [split]
  rw [iterate_xor (shiftXorLsb_xor rpoly), iterate_shiftXorLsb_high, high]
  intro i hi
  simp [BitVec.getLsbD_shiftLeft, hi]

/-- A folded register is its top byte, moved down and XORed with the input byte, put back on top of its low bits. -/
theorem fold_split {w : Nat} (hw : w ≤ 32) (h8 : 8 ≤ w) {reg : Word} (h : reg.toNat < 2 ^ w) (b : Byte) :
    fold w reg b = fold w 0#32 ((reg >>> (w - 8)).setWidth 8 ^^^ b) ^^^ (reg &&& mask (w - 8)) := by
  apply BitVec.eq_of_getLsbD_eq
  intro i hi
  simp only [fold, BitVec.getLsbD_xor, BitVec.getLsbD_shiftLeft, BitVec.getLsbD_setWidth, and_mask_getLsbD,
    BitVec.getLsbD_ushiftRight, BitVec.getLsbD_zero]
  by_cases hlow : i < w - 8
  · simp [hlow]
  · by_cases hiw : i < w
    · have e1 : i - (w - 8) < 32 := by omega
      have e2 : i - (w - 8) < 8 := by omega
      have e3 : w - 8 + (i - (w - 8)) = i := by omega
      simp only [hi, hlow, e1, e2, e3]
      cases reg.getLsbD i <;> simp
    · have e0 : reg.getLsbD i = false := bit_false_of_toNat_lt h (by omega)
      have e2 : ¬ (i - (w - 8) < 8) := by omega
      have e3 : b.getLsbD (i - (w - 8)) = false := BitVec.getLsbD_of_ge b _ (by omega)
      simp [hlow, e0, e2, e3]

/-- One byte step is one shift and the step of the top byte from a zero register. -/
theorem gstep_split {w : Nat} (hw : w ≤ 32) (h8 : 8 ≤ w) (poly : Word) {reg : Word} (h : reg.toNat < 2 ^ w)
    (b : Byte) :
    gstep w poly false reg b =
      gstep w poly false 0#32 ((reg >>> (w - 8)).setWidth 8 ^^^ b) ^^^ ((reg <<< 8) &&& mask w) := by
  have hl : (reg &&& mask (w - 8)).toNat < 2 ^ (w - 8) := and_mask_lt _ _
  simp only [gstep, reflectIn, Bool.false_eq_true, if_false]
  rw [fold_split hw h8 h b, iterate_xor (shiftXor_xor w poly), iterate_shiftXor_of_lt poly hw 8 h8 _ hl]
  congr 1
  apply BitVec.eq_of_getLsbD_eq
  intro i _
  simp only [BitVec.getLsbD_shiftLeft, and_mask_getLsbD]
  by_cases h8i : i < 8
  · simp [h8i]
  · have : (i - 8 < w - 8) = (i < w) := by simp; omega
    simp [this, Bool.and_assoc]

/-! ### The catalogue -/

theorem catalogue_width_le (a : Alg) : (catalogue a).width ≤ 32 := by cases a <;> decide

theorem catalogue_width_ge (a : Alg) : 8 ≤ (catalogue a).width := by cases a <;> decide

theorem catalogue_poly_lt (a : Alg) : (catalogue a).poly.toNat < 2 ^ (catalogue a).width := by cases a <;> decide

theorem catalogue_init_lt (a : Alg) : (catalogue a).init.toNat < 2 ^ (catalogue a).width := by cases a <;> decide

theorem catalogue_xorout_lt (a : Alg) : (catalogue a).xorout.toNat < 2 ^ (catalogue a).width := by
  cases a <;> decide

theorem tn_lt (a : Alg) (i : Byte) : (tn a i).toNat < 2 ^ (catalogue a).width := gstep_lt _ _ _ _ _

theorem tstepN_lt (a : Alg) (reg : Word) (b : Byte) : (tstepN a reg b).toNat < 2 ^ (catalogue a).width :=
  and_mask_lt _ _

theorem rom_of_refin {a : Alg} (h : (catalogue a).refin = true) (i : Byte) : rom a i = tr a i := by simp [rom, h]

theorem rom_of_not_refin {a : Alg} (h : (catalogue a).refin = false) (i : Byte) : rom a i = tn a i := by
  simp [rom, h]

end Sys2Proof.Machine
end

