-- ==== Sys2Proof/Tests/Slice0.lean ====
section
/-! SUPPORT. The model's own tests. Expected results are the spec's, copied from 95_test_vectors.md, 30_encoding.md
R81, 41_crc_generic_bitwise.md R99 and 42_crc_table_accelerated.md R102, or worked by hand from a rule. After them,
one witness theorem for each statement that has hypotheses. -/

namespace Sys2Proof.Tests

open Sys2Proof Sys2Proof.Machine Sys2Proof.Reference

/-! ### Well-formed terms and ill-formed ones (30_encoding.md R67) -/

theorem test_wf_refuses_a_proc_with_a_word_too_few : (Instr.proc 9#16 [0#32, 0#32]).wf = false := by decide
theorem test_wf_refuses_a_proc_with_a_word_too_many : (Instr.proc 0#16 [0#32]).wf = false := by decide
theorem test_wf_refuses_a_compute_with_a_word_too_few : (Instr.compute 1#16 []).wf = false := by decide
theorem test_wf_refuses_a_compute_with_a_word_too_many : (Instr.compute 4#16 [0#32, 0#32]).wf = false := by decide
theorem test_wf_takes_unsupported_widths :
    (Instr.createGeneric 12#8 false false 0#32 0#32 0#32).wf = true ∧ (Instr.refl 33#6 0#32).wf = true := by decide

/-! ### Decoding: words written out bit by bit from the encodings of R72 -/

/-- `00000000000000 RO RI WWWWWWWW 00000001` with RO = 0, RI = 1, W = 16. -/
theorem test_decode_create_generic :
    decode [0b00000000000000_0_1_00010000_00000001#32, 0x1021#32, 0x2#32, 0x3#32, 0xFF#32]
      = .instr (.createGeneric 16#8 true false 0x1021#32 0x2#32 0x3#32) [0xFF#32] := by decide
/-- `0000000000000000000000 AA 00000010`, the four values of ALG (44 R136). -/
theorem test_decode_create_standard :
    decode [0b0000000000000000000000_00_00000010#32] = .instr (.createStandard .crc16) [] ∧
    decode [0b0000000000000000000000_01_00000010#32] = .instr (.createStandard .ccitt) [] ∧
    decode [0b0000000000000000000000_10_00000010#32] = .instr (.createStandard .xmodem) [] ∧
    decode [0b0000000000000000000000_11_00000010#32] = .instr (.createStandard .crc32) [] := by decide
theorem test_decode_reset : decode [0b00000000000000000000000000000011#32] = .instr .reset [] := by decide
theorem test_decode_chksum : decode [0b00000000000000000000000000000100#32] = .instr .chksum [] := by decide
/-- `0000000000000000 BBBBBBBB 00000101`. -/
theorem test_decode_procb : decode [0b0000000000000000_00110001_00000101#32] = .instr (.procb 0x31#8) [] := by decide
/-- `CCCCCCCCCCCCCCCC 000000000000 0110`, and CNT = 0, which takes no data word. -/
theorem test_decode_proc :
    decode [0b0000000000000101_000000000000_0110#32, 0x34333231#32, 0x35#32, 0x4#32]
      = .instr (.proc 5#16 [0x34333231#32, 0x35#32]) [0x4#32] ∧
    decode [0b0000000000000000_000000000000_0110#32, 0x4#32] = .instr (.proc 0#16 []) [0x4#32] := by decide
theorem test_decode_destroy : decode [0b00000000000000000000000000000111#32] = .instr .destroy [] := by decide
/-- `CCCCCCCCCCCCCCCC 000000000000 1000`. -/
theorem test_decode_compute :
    decode [0b0000000000000100_000000000000_1000#32, 0x34333231#32, 0x5#32]
      = .instr (.compute 4#16 [0x34333231#32]) [0x5#32] := by decide
/-- `000000000000000000 NNNNNN 00001001`, N = 33, which decodes although its execution is illegal. -/
theorem test_decode_refl :
    decode [0b000000000000000000_100001_00001001#32, 0x12345678#32] = .instr (.refl 33#6 0x12345678#32) [] := by decide
/-- Reserved OPs and reserved bits (R73, R74; vectors V9, V16, V20, V29, V38, V49 to V52). -/
theorem test_decode_illegal :
    decode [0x00000000#32, 0x4#32] = .illegal .reservedOp [0x4#32] ∧
    decode [0x0000000A#32] = .illegal .reservedOp [] ∧ decode [0xFFFFFFFF#32] = .illegal .reservedOp [] ∧
    decode [0x00042001#32, 0x4#32] = .illegal .reservedBit [0x4#32] ∧
    decode [0x00000702#32] = .illegal .reservedBit [] ∧ decode [0x00000013#32] = .illegal .reservedBit [] ∧
    decode [0x00013105#32] = .illegal .reservedBit [] ∧ decode [0x00090106#32] = .illegal .reservedBit [] ∧
    decode [0x80000007#32] = .illegal .reservedBit [] ∧ decode [0x00010809#32] = .illegal .reservedBit [] := by decide
theorem test_decode_incomplete :
    decode [] = .incomplete ∧ decode [0x00002001#32, 0#32, 0#32] = .incomplete ∧
    decode [0x00010006#32] = .incomplete ∧ decode [0x00000109#32] = .incomplete := by decide
/-- The longest command: CNT = 65535 is 16385 words (R70). -/
theorem test_longest_command : commandLength 0xFFFF0006#32 = 16385 := by decide
/-- The numbering of spec/opcode_table.json: a later word's bits count on from bit 32. -/
theorem test_decode_table_word :
    decodeTableWord 128 0x00000003000000020000102100011001
      = some (.createGeneric 16#8 true false 0x1021#32 0x2#32 0x3#32) ∧
    decodeTableWord 32 0x00090006 = some (.proc 9#16 [0#32, 0#32, 0#32]) ∧ decodeTableWord 32 0 = none := by decide
/-- R78 to R80: defaults, a repeated element, comments. -/
theorem test_assemble :
    assembleWords "create_generic 8, 0x07" = some [0x00000801#32, 0x07#32, 0#32, 0#32] ∧
    assembleWords "refl 8, 0x31" = some [0x00000809#32, 0x31#32] ∧
    assembleWords "procb 0x31 ; a" = some [0x00003105#32] := by decide +kernel

/-! ### Results: one step on the start states of 95_test_vectors.md section 6 -/

/-- The state after hardware reset with a context and a receive buffer. -/
def loaded (c : Ctx) (ws : List Word) : State := { State.reset with ctx := c, rxBuf := ws }

/-- What one step on a buffered command leaves: the response, the context, the command pointer, the buffer. -/
def ran (c : Ctx) (ws : List Word) : Option (Option Response × Ctx × Nat × List Word) :=
  match step (loaded c ws) with
  | .next t => some (t.rspSlot, t.ctx, t.cp, t.rxBuf)
  | .fault _ => none
  | .refused _ => none

/-- A command of `n` words that leaves the context `c` and the response `(st, d)`. -/
def gives (st : Status) (d : Word) (c : Ctx) (n : Nat) : Option (Option Response × Ctx × Nat × List Word) :=
  some (some ⟨st, d⟩, c, n, [])

def ctxT1 : Ctx := ⟨true, .table, .ccitt, 16, 0x1021#32, 0xFFFF#32, 0#32, false, false, 0xFFFF#32⟩
def ctxT2 : Ctx := ⟨true, .table, .xmodem, 16, 0x8408#32, 0#32, 0#32, true, true, 0#32⟩
def ctxT3 : Ctx :=
  ⟨true, .table, .crc32, 32, 0x04C11DB7#32, 0xFFFFFFFF#32, 0xFFFFFFFF#32, true, true, 0xFFFFFFFF#32⟩
def ctxT3a : Ctx := { ctxT3 with crcReg := 0x641C1F5C#32 }
def ctxG32 : Ctx := { ctxT3 with kind := .generic, alg := .crc16 }
def ctxG8 : Ctx := ⟨true, .generic, .crc16, 8, 0x07#32, 0#32, 0#32, false, false, 0#32⟩
def ctxX : Ctx := { ctxT3 with valid := false }

/-- V2: the values are masked. -/
theorem test_create_generic_masks : ran Ctx.zero [0x00000801#32, 0x107#32, 0x1FF#32, 0xF00#32]
    = gives .ok 0#32 ⟨true, .generic, .crc16, 8, 0x07#32, 0xFF#32, 0#32, false, false, 0xFF#32⟩ 4 := by decide +kernel
/-- V5. -/
theorem test_create_generic_width_12 : ran ctxT3a [0x00000C01#32, 0x80F#32, 0#32, 0#32]
    = gives .unsupportedWidth 0#32 ctxT3a 4 := by decide +kernel
/-- V14: a table engine replaces a generic one. -/
theorem test_create_standard_replaces : ran ctxG32 [0x00000102#32] = gives .ok 0#32 ctxT1 1 := by decide +kernel
/-- V15: only `valid` changes. -/
theorem test_create_standard_after_destroy : ran ctxX [0x00000302#32] = gives .ok 0#32 ctxT3 1 := by decide +kernel
/-- V17. -/
theorem test_reset : ran ctxT3a [0x00000003#32] = gives .ok 0#32 ctxT3 1 := by decide +kernel
/-- V19. -/
theorem test_reset_destroyed : ran ctxX [0x00000003#32] = gives .destroyedHandle 0#32 ctxX 1 := by decide +kernel
/-- V21. -/
theorem test_chksum : ran ctxT3a [0x00000004#32] = gives .ok 0x9BE3E0A3#32 ctxT3a 1 := by decide +kernel
/-- V24. -/
theorem test_chksum_after_hardware_reset : ran Ctx.zero [0x00000004#32]
    = gives .destroyedHandle 0#32 Ctx.zero 1 := by decide +kernel
/-- V25. -/
theorem test_procb_table : ran ctxT3 [0x00003105#32]
    = gives .ok 0#32 { ctxT3 with crcReg := 0x7C231048#32 } 1 := by decide +kernel
/-- V27. -/
theorem test_procb_generic : ran ctxG32 [0x00003105#32]
    = gives .ok 0#32 { ctxG32 with crcReg := 0x1208C43E#32 } 1 := by decide +kernel
/-- V34: the padding bytes 0xAA do not count. -/
theorem test_proc_ignores_padding : ran ctxT3 [0x00050006#32, 0x34333231#32, 0xAAAAAA35#32]
    = gives .ok 0#32 { ctxT3 with crcReg := 0x340AC5E3#32 } 3 := by decide +kernel
/-- V36. -/
theorem test_proc_width_8 : ran ctxG8 [0x00090006#32, 0x34333231#32, 0x38373635#32, 0x00000039#32]
    = gives .ok 0#32 { ctxG8 with crcReg := 0xF4#32 } 4 := by decide +kernel
/-- V39. -/
theorem test_compute_crc32 : ran ctxT3a [0x00090008#32, 0x34333231#32, 0x38373635#32, 0x00000039#32]
    = gives .ok 0xCBF43926#32 { ctxT3 with crcReg := 0x340BC6D9#32 } 4 := by decide +kernel
/-- V42. -/
theorem test_compute_xmodem : ran ctxT2 [0x00090008#32, 0x34333231#32, 0x38373635#32, 0x00000039#32]
    = gives .ok 0x0C73#32 { ctxT2 with crcReg := 0x0C73#32 } 4 := by decide +kernel
/-- V46. -/
theorem test_destroy : ran ctxT3 [0x00000007#32] = gives .ok 0#32 ctxX 1 := by decide +kernel
/-- V47. -/
theorem test_destroy_twice : ran ctxX [0x00000007#32] = gives .destroyedHandle 0#32 ctxX 1 := by decide +kernel
/-- Section 3, n = 24. -/
theorem test_refl : ran ctxX [0x00001809#32, 0x00864CFB#32] = gives .ok 0x00DF3261#32 ctxX 2 := by decide +kernel
/-- Section 3, N = 33: both words are consumed. -/
theorem test_refl_33 : ran ctxT3 [0x00002109#32, 0x12345678#32]
    = gives .illegalCommand 0#32 ctxT3 2 := by decide +kernel
/-- V38: an illegal word is one word long. -/
theorem test_illegal_word : ran ctxT3 [0x00090106#32] = gives .illegalCommand 0#32 ctxT3 1 := by decide +kernel

/-- 20 R43: a word that is withdrawn before it transfers never enters the receive buffer. -/
theorem test_withdrawn_word : (match step ((State.reset.send [0x4#32]).withdraw) with
    | .next t => t.rxBuf | .fault _ => [0#32] | .refused _ => [0#32]) = [] := by decide
/-- 20 R43: of a changed word, the value on the port at the transfer is received. -/
theorem test_changed_word : (match step ((State.reset.send [0x4#32, 0x7#32]).changeWord 0x3#32) with
    | .next t => (t.rxBuf, t.cmdIn) | .fault _ => ([], []) | .refused _ => ([], [])) = ([0x3#32], [0x7#32]) := by decide

/-! ### Datapaths -/

/-- 41 R99: the fold position for width 32. -/
theorem test_fold_position : fold 32 0xFFFFFFFF#32 (reflectIn true 0x31#8) = 0x73FFFFFF#32 ∧
    gstep 32 0x04C11DB7#32 true 0xFFFFFFFF#32 0x31#8 = 0x1208C43E#32 := by decide +kernel
/-- Section 4.1, w = 24 and w = 8 with refin. -/
theorem test_gstep : gstep 24 0x864CFB#32 false 0xB704CE#32 0x31#8 = 0x2EBA48#32 ∧
    gstep 8 0x07#32 true 0x00#32 0x01#8 = 0x89#32 := by decide +kernel
/-- Section 4.2. -/
theorem test_gfinal : gfinal 24 0#32 true 0x000001#32 = 0x800000#32 ∧ gfinal 8 0xFF#32 false 0xF4#32 = 0x0B#32 := by
  decide +kernel
/-- Section 5.1: ccitt 0x1234 with 0xFF, xmodem 0xB3D5 with 0x80. -/
theorem test_tstep : tstepN .ccitt 0x1234#32 0xFF#8 = 0x1883#32 ∧ tstepR .xmodem 0xB3D5#32 0x80#8 = 0x0ECF#32 := by
  decide +kernel
/-- 42 R102: entries of the tables that the ROM does not hold. -/
theorem test_other_tables : tn .crc16 0x80#8 = 0x8303#32 ∧ tn .xmodem 0xFF#8 = 0x2148#32 ∧
    tn .crc32 0xFF#8 = 0xB1F740B4#32 ∧ tr .ccitt 1#8 = 0x1189#32 ∧ tr .ccitt 0xFF#8 = 0x0F78#32 := by decide +kernel

/-- TR_crc16, 95_test_vectors.md section 7. -/
theorem test_rom_crc16 : (List.range 256).map (fun i => rom .crc16 (BitVec.ofNat 8 i)) = (([0x0000, 0xC0C1, 0xC181, 0x0140, 0xC301, 0x03C0, 0x0280, 0xC241] ++
    [0xC601, 0x06C0, 0x0780, 0xC741, 0x0500, 0xC5C1, 0xC481, 0x0440] ++
    [0xCC01, 0x0CC0, 0x0D80, 0xCD41, 0x0F00, 0xCFC1, 0xCE81, 0x0E40] ++
    [0x0A00, 0xCAC1, 0xCB81, 0x0B40, 0xC901, 0x09C0, 0x0880, 0xC841] ++
    [0xD801, 0x18C0, 0x1980, 0xD941, 0x1B00, 0xDBC1, 0xDA81, 0x1A40] ++
    [0x1E00, 0xDEC1, 0xDF81, 0x1F40, 0xDD01, 0x1DC0, 0x1C80, 0xDC41] ++
    [0x1400, 0xD4C1, 0xD581, 0x1540, 0xD701, 0x17C0, 0x1680, 0xD641] ++
    [0xD201, 0x12C0, 0x1380, 0xD341, 0x1100, 0xD1C1, 0xD081, 0x1040] ++
    [0xF001, 0x30C0, 0x3180, 0xF141, 0x3300, 0xF3C1, 0xF281, 0x3240] ++
    [0x3600, 0xF6C1, 0xF781, 0x3740, 0xF501, 0x35C0, 0x3480, 0xF441] ++
    [0x3C00, 0xFCC1, 0xFD81, 0x3D40, 0xFF01, 0x3FC0, 0x3E80, 0xFE41] ++
    [0xFA01, 0x3AC0, 0x3B80, 0xFB41, 0x3900, 0xF9C1, 0xF881, 0x3840] ++
    [0x2800, 0xE8C1, 0xE981, 0x2940, 0xEB01, 0x2BC0, 0x2A80, 0xEA41] ++
    [0xEE01, 0x2EC0, 0x2F80, 0xEF41, 0x2D00, 0xEDC1, 0xEC81, 0x2C40] ++
    [0xE401, 0x24C0, 0x2580, 0xE541, 0x2700, 0xE7C1, 0xE681, 0x2640] ++
    [0x2200, 0xE2C1, 0xE381, 0x2340, 0xE101, 0x21C0, 0x2080, 0xE041] ++
    [0xA001, 0x60C0, 0x6180, 0xA141, 0x6300, 0xA3C1, 0xA281, 0x6240] ++
    [0x6600, 0xA6C1, 0xA781, 0x6740, 0xA501, 0x65C0, 0x6480, 0xA441] ++
    [0x6C00, 0xACC1, 0xAD81, 0x6D40, 0xAF01, 0x6FC0, 0x6E80, 0xAE41] ++
    [0xAA01, 0x6AC0, 0x6B80, 0xAB41, 0x6900, 0xA9C1, 0xA881, 0x6840] ++
    [0x7800, 0xB8C1, 0xB981, 0x7940, 0xBB01, 0x7BC0, 0x7A80, 0xBA41] ++
    [0xBE01, 0x7EC0, 0x7F80, 0xBF41, 0x7D00, 0xBDC1, 0xBC81, 0x7C40] ++
    [0xB401, 0x74C0, 0x7580, 0xB541, 0x7700, 0xB7C1, 0xB681, 0x7640] ++
    [0x7200, 0xB2C1, 0xB381, 0x7340, 0xB101, 0x71C0, 0x7080, 0xB041] ++
    [0x5000, 0x90C1, 0x9181, 0x5140, 0x9301, 0x53C0, 0x5280, 0x9241] ++
    [0x9601, 0x56C0, 0x5780, 0x9741, 0x5500, 0x95C1, 0x9481, 0x5440] ++
    [0x9C01, 0x5CC0, 0x5D80, 0x9D41, 0x5F00, 0x9FC1, 0x9E81, 0x5E40] ++
    [0x5A00, 0x9AC1, 0x9B81, 0x5B40, 0x9901, 0x59C0, 0x5880, 0x9841] ++
    [0x8801, 0x48C0, 0x4980, 0x8941, 0x4B00, 0x8BC1, 0x8A81, 0x4A40] ++
    [0x4E00, 0x8EC1, 0x8F81, 0x4F40, 0x8D01, 0x4DC0, 0x4C80, 0x8C41] ++
    [0x4400, 0x84C1, 0x8581, 0x4540, 0x8701, 0x47C0, 0x4680, 0x8641] ++
    [0x8201, 0x42C0, 0x4380, 0x8341, 0x4100, 0x81C1, 0x8081, 0x4040]) : List Nat).map (BitVec.ofNat 32) := by
  decide +kernel

/-- TN_ccitt, 95_test_vectors.md section 7. -/
theorem test_rom_ccitt : (List.range 256).map (fun i => rom .ccitt (BitVec.ofNat 8 i)) = (([0x0000, 0x1021, 0x2042, 0x3063, 0x4084, 0x50A5, 0x60C6, 0x70E7] ++
    [0x8108, 0x9129, 0xA14A, 0xB16B, 0xC18C, 0xD1AD, 0xE1CE, 0xF1EF] ++
    [0x1231, 0x0210, 0x3273, 0x2252, 0x52B5, 0x4294, 0x72F7, 0x62D6] ++
    [0x9339, 0x8318, 0xB37B, 0xA35A, 0xD3BD, 0xC39C, 0xF3FF, 0xE3DE] ++
    [0x2462, 0x3443, 0x0420, 0x1401, 0x64E6, 0x74C7, 0x44A4, 0x5485] ++
    [0xA56A, 0xB54B, 0x8528, 0x9509, 0xE5EE, 0xF5CF, 0xC5AC, 0xD58D] ++
    [0x3653, 0x2672, 0x1611, 0x0630, 0x76D7, 0x66F6, 0x5695, 0x46B4] ++
    [0xB75B, 0xA77A, 0x9719, 0x8738, 0xF7DF, 0xE7FE, 0xD79D, 0xC7BC] ++
    [0x48C4, 0x58E5, 0x6886, 0x78A7, 0x0840, 0x1861, 0x2802, 0x3823] ++
    [0xC9CC, 0xD9ED, 0xE98E, 0xF9AF, 0x8948, 0x9969, 0xA90A, 0xB92B] ++
    [0x5AF5, 0x4AD4, 0x7AB7, 0x6A96, 0x1A71, 0x0A50, 0x3A33, 0x2A12] ++
    [0xDBFD, 0xCBDC, 0xFBBF, 0xEB9E, 0x9B79, 0x8B58, 0xBB3B, 0xAB1A] ++
    [0x6CA6, 0x7C87, 0x4CE4, 0x5CC5, 0x2C22, 0x3C03, 0x0C60, 0x1C41] ++
    [0xEDAE, 0xFD8F, 0xCDEC, 0xDDCD, 0xAD2A, 0xBD0B, 0x8D68, 0x9D49] ++
    [0x7E97, 0x6EB6, 0x5ED5, 0x4EF4, 0x3E13, 0x2E32, 0x1E51, 0x0E70] ++
    [0xFF9F, 0xEFBE, 0xDFDD, 0xCFFC, 0xBF1B, 0xAF3A, 0x9F59, 0x8F78] ++
    [0x9188, 0x81A9, 0xB1CA, 0xA1EB, 0xD10C, 0xC12D, 0xF14E, 0xE16F] ++
    [0x1080, 0x00A1, 0x30C2, 0x20E3, 0x5004, 0x4025, 0x7046, 0x6067] ++
    [0x83B9, 0x9398, 0xA3FB, 0xB3DA, 0xC33D, 0xD31C, 0xE37F, 0xF35E] ++
    [0x02B1, 0x1290, 0x22F3, 0x32D2, 0x4235, 0x5214, 0x6277, 0x7256] ++
    [0xB5EA, 0xA5CB, 0x95A8, 0x8589, 0xF56E, 0xE54F, 0xD52C, 0xC50D] ++
    [0x34E2, 0x24C3, 0x14A0, 0x0481, 0x7466, 0x6447, 0x5424, 0x4405] ++
    [0xA7DB, 0xB7FA, 0x8799, 0x97B8, 0xE75F, 0xF77E, 0xC71D, 0xD73C] ++
    [0x26D3, 0x36F2, 0x0691, 0x16B0, 0x6657, 0x7676, 0x4615, 0x5634] ++
    [0xD94C, 0xC96D, 0xF90E, 0xE92F, 0x99C8, 0x89E9, 0xB98A, 0xA9AB] ++
    [0x5844, 0x4865, 0x7806, 0x6827, 0x18C0, 0x08E1, 0x3882, 0x28A3] ++
    [0xCB7D, 0xDB5C, 0xEB3F, 0xFB1E, 0x8BF9, 0x9BD8, 0xABBB, 0xBB9A] ++
    [0x4A75, 0x5A54, 0x6A37, 0x7A16, 0x0AF1, 0x1AD0, 0x2AB3, 0x3A92] ++
    [0xFD2E, 0xED0F, 0xDD6C, 0xCD4D, 0xBDAA, 0xAD8B, 0x9DE8, 0x8DC9] ++
    [0x7C26, 0x6C07, 0x5C64, 0x4C45, 0x3CA2, 0x2C83, 0x1CE0, 0x0CC1] ++
    [0xEF1F, 0xFF3E, 0xCF5D, 0xDF7C, 0xAF9B, 0xBFBA, 0x8FD9, 0x9FF8] ++
    [0x6E17, 0x7E36, 0x4E55, 0x5E74, 0x2E93, 0x3EB2, 0x0ED1, 0x1EF0]) : List Nat).map (BitVec.ofNat 32) := by
  decide +kernel

/-- TR_xmodem, 95_test_vectors.md section 7. -/
theorem test_rom_xmodem : (List.range 256).map (fun i => rom .xmodem (BitVec.ofNat 8 i)) = (([0x0000, 0x17CE, 0x0FDF, 0x1811, 0x1FBE, 0x0870, 0x1061, 0x07AF] ++
    [0x1F3F, 0x08F1, 0x10E0, 0x072E, 0x0081, 0x174F, 0x0F5E, 0x1890] ++
    [0x1E3D, 0x09F3, 0x11E2, 0x062C, 0x0183, 0x164D, 0x0E5C, 0x1992] ++
    [0x0102, 0x16CC, 0x0EDD, 0x1913, 0x1EBC, 0x0972, 0x1163, 0x06AD] ++
    [0x1C39, 0x0BF7, 0x13E6, 0x0428, 0x0387, 0x1449, 0x0C58, 0x1B96] ++
    [0x0306, 0x14C8, 0x0CD9, 0x1B17, 0x1CB8, 0x0B76, 0x1367, 0x04A9] ++
    [0x0204, 0x15CA, 0x0DDB, 0x1A15, 0x1DBA, 0x0A74, 0x1265, 0x05AB] ++
    [0x1D3B, 0x0AF5, 0x12E4, 0x052A, 0x0285, 0x154B, 0x0D5A, 0x1A94] ++
    [0x1831, 0x0FFF, 0x17EE, 0x0020, 0x078F, 0x1041, 0x0850, 0x1F9E] ++
    [0x070E, 0x10C0, 0x08D1, 0x1F1F, 0x18B0, 0x0F7E, 0x176F, 0x00A1] ++
    [0x060C, 0x11C2, 0x09D3, 0x1E1D, 0x19B2, 0x0E7C, 0x166D, 0x01A3] ++
    [0x1933, 0x0EFD, 0x16EC, 0x0122, 0x068D, 0x1143, 0x0952, 0x1E9C] ++
    [0x0408, 0x13C6, 0x0BD7, 0x1C19, 0x1BB6, 0x0C78, 0x1469, 0x03A7] ++
    [0x1B37, 0x0CF9, 0x14E8, 0x0326, 0x0489, 0x1347, 0x0B56, 0x1C98] ++
    [0x1A35, 0x0DFB, 0x15EA, 0x0224, 0x058B, 0x1245, 0x0A54, 0x1D9A] ++
    [0x050A, 0x12C4, 0x0AD5, 0x1D1B, 0x1AB4, 0x0D7A, 0x156B, 0x02A5] ++
    [0x1021, 0x07EF, 0x1FFE, 0x0830, 0x0F9F, 0x1851, 0x0040, 0x178E] ++
    [0x0F1E, 0x18D0, 0x00C1, 0x170F, 0x10A0, 0x076E, 0x1F7F, 0x08B1] ++
    [0x0E1C, 0x19D2, 0x01C3, 0x160D, 0x11A2, 0x066C, 0x1E7D, 0x09B3] ++
    [0x1123, 0x06ED, 0x1EFC, 0x0932, 0x0E9D, 0x1953, 0x0142, 0x168C] ++
    [0x0C18, 0x1BD6, 0x03C7, 0x1409, 0x13A6, 0x0468, 0x1C79, 0x0BB7] ++
    [0x1327, 0x04E9, 0x1CF8, 0x0B36, 0x0C99, 0x1B57, 0x0346, 0x1488] ++
    [0x1225, 0x05EB, 0x1DFA, 0x0A34, 0x0D9B, 0x1A55, 0x0244, 0x158A] ++
    [0x0D1A, 0x1AD4, 0x02C5, 0x150B, 0x12A4, 0x056A, 0x1D7B, 0x0AB5] ++
    [0x0810, 0x1FDE, 0x07CF, 0x1001, 0x17AE, 0x0060, 0x1871, 0x0FBF] ++
    [0x172F, 0x00E1, 0x18F0, 0x0F3E, 0x0891, 0x1F5F, 0x074E, 0x1080] ++
    [0x162D, 0x01E3, 0x19F2, 0x0E3C, 0x0993, 0x1E5D, 0x064C, 0x1182] ++
    [0x0912, 0x1EDC, 0x06CD, 0x1103, 0x16AC, 0x0162, 0x1973, 0x0EBD] ++
    [0x1429, 0x03E7, 0x1BF6, 0x0C38, 0x0B97, 0x1C59, 0x0448, 0x1386] ++
    [0x0B16, 0x1CD8, 0x04C9, 0x1307, 0x14A8, 0x0366, 0x1B77, 0x0CB9] ++
    [0x0A14, 0x1DDA, 0x05CB, 0x1205, 0x15AA, 0x0264, 0x1A75, 0x0DBB] ++
    [0x152B, 0x02E5, 0x1AF4, 0x0D3A, 0x0A95, 0x1D5B, 0x054A, 0x1284]) : List Nat).map (BitVec.ofNat 32) := by
  decide +kernel

/-- TR_crc32, 95_test_vectors.md section 7. -/
theorem test_rom_crc32 : (List.range 256).map (fun i => rom .crc32 (BitVec.ofNat 8 i)) = (([0x00000000, 0x77073096, 0xEE0E612C, 0x990951BA, 0x076DC419, 0x706AF48F, 0xE963A535, 0x9E6495A3] ++
    [0x0EDB8832, 0x79DCB8A4, 0xE0D5E91E, 0x97D2D988, 0x09B64C2B, 0x7EB17CBD, 0xE7B82D07, 0x90BF1D91] ++
    [0x1DB71064, 0x6AB020F2, 0xF3B97148, 0x84BE41DE, 0x1ADAD47D, 0x6DDDE4EB, 0xF4D4B551, 0x83D385C7] ++
    [0x136C9856, 0x646BA8C0, 0xFD62F97A, 0x8A65C9EC, 0x14015C4F, 0x63066CD9, 0xFA0F3D63, 0x8D080DF5] ++
    [0x3B6E20C8, 0x4C69105E, 0xD56041E4, 0xA2677172, 0x3C03E4D1, 0x4B04D447, 0xD20D85FD, 0xA50AB56B] ++
    [0x35B5A8FA, 0x42B2986C, 0xDBBBC9D6, 0xACBCF940, 0x32D86CE3, 0x45DF5C75, 0xDCD60DCF, 0xABD13D59] ++
    [0x26D930AC, 0x51DE003A, 0xC8D75180, 0xBFD06116, 0x21B4F4B5, 0x56B3C423, 0xCFBA9599, 0xB8BDA50F] ++
    [0x2802B89E, 0x5F058808, 0xC60CD9B2, 0xB10BE924, 0x2F6F7C87, 0x58684C11, 0xC1611DAB, 0xB6662D3D] ++
    [0x76DC4190, 0x01DB7106, 0x98D220BC, 0xEFD5102A, 0x71B18589, 0x06B6B51F, 0x9FBFE4A5, 0xE8B8D433] ++
    [0x7807C9A2, 0x0F00F934, 0x9609A88E, 0xE10E9818, 0x7F6A0DBB, 0x086D3D2D, 0x91646C97, 0xE6635C01] ++
    [0x6B6B51F4, 0x1C6C6162, 0x856530D8, 0xF262004E, 0x6C0695ED, 0x1B01A57B, 0x8208F4C1, 0xF50FC457] ++
    [0x65B0D9C6, 0x12B7E950, 0x8BBEB8EA, 0xFCB9887C, 0x62DD1DDF, 0x15DA2D49, 0x8CD37CF3, 0xFBD44C65] ++
    [0x4DB26158, 0x3AB551CE, 0xA3BC0074, 0xD4BB30E2, 0x4ADFA541, 0x3DD895D7, 0xA4D1C46D, 0xD3D6F4FB] ++
    [0x4369E96A, 0x346ED9FC, 0xAD678846, 0xDA60B8D0, 0x44042D73, 0x33031DE5, 0xAA0A4C5F, 0xDD0D7CC9] ++
    [0x5005713C, 0x270241AA, 0xBE0B1010, 0xC90C2086, 0x5768B525, 0x206F85B3, 0xB966D409, 0xCE61E49F] ++
    [0x5EDEF90E, 0x29D9C998, 0xB0D09822, 0xC7D7A8B4, 0x59B33D17, 0x2EB40D81, 0xB7BD5C3B, 0xC0BA6CAD] ++
    [0xEDB88320, 0x9ABFB3B6, 0x03B6E20C, 0x74B1D29A, 0xEAD54739, 0x9DD277AF, 0x04DB2615, 0x73DC1683] ++
    [0xE3630B12, 0x94643B84, 0x0D6D6A3E, 0x7A6A5AA8, 0xE40ECF0B, 0x9309FF9D, 0x0A00AE27, 0x7D079EB1] ++
    [0xF00F9344, 0x8708A3D2, 0x1E01F268, 0x6906C2FE, 0xF762575D, 0x806567CB, 0x196C3671, 0x6E6B06E7] ++
    [0xFED41B76, 0x89D32BE0, 0x10DA7A5A, 0x67DD4ACC, 0xF9B9DF6F, 0x8EBEEFF9, 0x17B7BE43, 0x60B08ED5] ++
    [0xD6D6A3E8, 0xA1D1937E, 0x38D8C2C4, 0x4FDFF252, 0xD1BB67F1, 0xA6BC5767, 0x3FB506DD, 0x48B2364B] ++
    [0xD80D2BDA, 0xAF0A1B4C, 0x36034AF6, 0x41047A60, 0xDF60EFC3, 0xA867DF55, 0x316E8EEF, 0x4669BE79] ++
    [0xCB61B38C, 0xBC66831A, 0x256FD2A0, 0x5268E236, 0xCC0C7795, 0xBB0B4703, 0x220216B9, 0x5505262F] ++
    [0xC5BA3BBE, 0xB2BD0B28, 0x2BB45A92, 0x5CB36A04, 0xC2D7FFA7, 0xB5D0CF31, 0x2CD99E8B, 0x5BDEAE1D] ++
    [0x9B64C2B0, 0xEC63F226, 0x756AA39C, 0x026D930A, 0x9C0906A9, 0xEB0E363F, 0x72076785, 0x05005713] ++
    [0x95BF4A82, 0xE2B87A14, 0x7BB12BAE, 0x0CB61B38, 0x92D28E9B, 0xE5D5BE0D, 0x7CDCEFB7, 0x0BDBDF21] ++
    [0x86D3D2D4, 0xF1D4E242, 0x68DDB3F8, 0x1FDA836E, 0x81BE16CD, 0xF6B9265B, 0x6FB077E1, 0x18B74777] ++
    [0x88085AE6, 0xFF0F6A70, 0x66063BCA, 0x11010B5C, 0x8F659EFF, 0xF862AE69, 0x616BFFD3, 0x166CCF45] ++
    [0xA00AE278, 0xD70DD2EE, 0x4E048354, 0x3903B3C2, 0xA7672661, 0xD06016F7, 0x4969474D, 0x3E6E77DB] ++
    [0xAED16A4A, 0xD9D65ADC, 0x40DF0B66, 0x37D83BF0, 0xA9BCAE53, 0xDEBB9EC5, 0x47B2CF7F, 0x30B5FFE9] ++
    [0xBDBDF21C, 0xCABAC28A, 0x53B39330, 0x24B4A3A6, 0xBAD03605, 0xCDD70693, 0x54DE5729, 0x23D967BF] ++
    [0xB3667A2E, 0xC4614AB8, 0x5D681B02, 0x2A6F2B94, 0xB40BBE37, 0xC30C8EA1, 0x5A05DF1B, 0x2D02EF8D]) : List Nat).map (BitVec.ofNat 32) := by
  decide +kernel

/-! ### Witnesses: concrete states and operands that meet the hypotheses of each statement

`witness_<Name>` belongs to `Obligations.<Name>`. -/

/-- A state with a command word at the head of the offered words and nothing received. -/
def offered (c : Ctx) (ws : List Word) : State := { State.reset with ctx := c, cmdIn := ws }

/-- A state with a response pending. -/
def pending (c : Ctx) (r : Response) : State := { State.reset with ctx := c, rspSlot := some r }

/-- The nine check bytes as data words. -/
def checkData : List Word := [0x34333231#32, 0x38373635#32, 0x00000039#32]

/-- One command of each kind, for the statements over every command. -/
def everyKind : List Instr :=
  [.createGeneric 32#8 true false 1#32 2#32 3#32, .createStandard .xmodem, .reset, .chksum, .procb 0xFF#8,
   .proc 9#16 checkData, .destroy, .compute 0#16 [], .refl 63#6 1#32]

/-- Every command answers a next state from any state, so a hypothesis `exec i s = .next t` is met by some `t`. -/
theorem exec_answers (i : Instr) (s : State) : ∃ t, exec i s = .next t :=
  let ⟨c, r, h⟩ := exec_shape i s
  ⟨{ s with ctx := c, rspSlot := some r }, h⟩

theorem witness_DecodeOfEncodeGivesTheCommand : (∀ i ∈ everyKind, i.wf = true) ∧
    (Instr.proc 0#16 []).wf = true ∧ (Instr.proc 4#16 [1#32]).wf = true ∧ (Instr.compute 5#16 [1#32, 2#32]).wf = true := by
  decide
theorem witness_EncodeOfDecodeGivesTheWords :
    decode [0x00050006#32, 0x34333231#32, 0xAAAAAA35#32, 0x4#32]
      = .instr (.proc 5#16 [0x34333231#32, 0xAAAAAA35#32]) [0x4#32] := by decide
/-- A legal word with its operand words, and an illegal one, which has none. -/
theorem witness_EveryWordIsOneLegalCommandOrIllegal :
    (legal 0x00000109#32 = true ∧ [0#32].length + 1 = commandLength 0x00000109#32) ∧
    (legal 0x00010809#32 = false ∧ ([] : List Word).length + 1 = commandLength 0x00010809#32) ∧
    (∃ r ∈ opcodeMap, 0xFFFF0008#32 &&& r.mask = r.pattern) := by decide
/-- Each branch at a boundary of its range. -/
theorem witness_CommandLengthFollowsTheCommandWord :
    legal 0xA#32 = false ∧ legal 0x0003FF01#32 = true ∧ legal 0x00000006#32 = true ∧ legal 0xFFFF0006#32 = true ∧
    legal 0x00040008#32 = true ∧ legal 0x00050008#32 = true ∧ legal 0x00003F09#32 = true ∧ legal 0x0000FF05#32 = true := by
  decide
theorem witness_ReservedOpcodeAnswersIllegalCommand : ∀ cw ∈ [0x0#32, 0xFFFFFFF0#32, 0xA#32, 0xFFFFFFFF#32],
    (loaded ctxT3 [cw]).rstN = true ∧ (loaded ctxT3 [cw]).rspSlot = none ∧ (loaded ctxT3 [cw]).rxBuf = [cw] ∧
    (cw.extractLsb' 0 4 = 0x0#4 ∨ 0xA ≤ (cw.extractLsb' 0 4).toNat) :=
  List.all_iff_forall_prop.mp (by decide +kernel)
/-- Vectors V9, V16, V20, V29, V38, V49, the REFL word of section 3, and a CHKSUM and a COMPUTE word of the same
kind: one for each row of the opcode map. -/
theorem witness_ReservedBitAnswersIllegalCommand :
    ∀ cw ∈ [0x00042001#32, 0x00000702#32, 0x00000013#32, 0x00000014#32, 0x00013105#32, 0x00090106#32, 0x80000007#32,
      0x00098008#32, 0x00010809#32],
    (loaded ctxT3 [cw]).rstN = true ∧ (loaded ctxT3 [cw]).rspSlot = none ∧ (loaded ctxT3 [cw]).rxBuf = [cw] ∧
    ∃ r ∈ opcodeMap, cw.extractLsb' 0 4 = r.pattern.extractLsb' 0 4 ∧ cw &&& r.mask ≠ r.pattern :=
  List.all_iff_forall_prop.mp (by decide +kernel)

theorem witness_StepExecutesTheBufferedCommand : ∃ t,
    (loaded ctxT3 (0x00090006#32 :: checkData)).rstN = true ∧
    (loaded ctxT3 (0x00090006#32 :: checkData)).rspSlot = none ∧
    decode (loaded ctxT3 (0x00090006#32 :: checkData)).rxBuf = .instr (.proc 9#16 checkData) [] ∧
    exec (.proc 9#16 checkData) (loaded ctxT3 (0x00090006#32 :: checkData)) = .next t :=
  (exec_answers _ _).imp (fun _ h => ⟨rfl, rfl, by decide +kernel, h⟩)
theorem witness_OfferedCommandRunsToItsResponse : ∃ t,
    (Instr.proc 9#16 checkData).wf = true ∧ (offered ctxT3 (0x00090006#32 :: checkData ++ [4#32])).rstN = true ∧
    (offered ctxT3 (0x00090006#32 :: checkData ++ [4#32])).rspReady = true ∧
    (offered ctxT3 (0x00090006#32 :: checkData ++ [4#32])).rspSlot = none ∧
    (offered ctxT3 (0x00090006#32 :: checkData ++ [4#32])).rxBuf = [] ∧
    (offered ctxT3 (0x00090006#32 :: checkData ++ [4#32])).cmdIn = encode (.proc 9#16 checkData) ++ [4#32] ∧
    exec (.proc 9#16 checkData) (offered ctxT3 (0x00090006#32 :: checkData ++ [4#32])) = .next t :=
  (exec_answers _ _).imp (fun _ h => ⟨by decide, rfl, rfl, rfl, rfl, by decide +kernel, h⟩)
/-- Reset asserted; a whole command buffered (one word, four words); a response pending; nothing received; a command
one word short. -/
theorem witness_CommandPointerAdvancesByTheLength :
    (∃ t, step (State.reset.driveRstN false) = .next t ∧ (State.reset.driveRstN false).rstN = false) ∧
    (∃ t, step (loaded ctxX [0xA#32]) = .next t ∧ commandLength 0xA#32 ≤ ([] : List Word).length + 1) ∧
    (∃ t, step (loaded ctxX (0x00090006#32 :: checkData)) = .next t ∧
      commandLength 0x00090006#32 ≤ checkData.length + 1) ∧
    (∃ t, step (pending ctxT3 ⟨.ok, 0#32⟩) = .next t ∧ (pending ctxT3 ⟨.ok, 0#32⟩).rspSlot ≠ none) ∧
    (∃ t, step State.reset = .next t ∧ State.reset.rxBuf = []) ∧
    (∃ t, step (loaded ctxT3 [0x00010006#32]) = .next t ∧ ([] : List Word).length + 1 < commandLength 0x00010006#32) :=
  ⟨⟨_, rfl, rfl⟩, ⟨_, rfl, by decide⟩, ⟨_, rfl, by decide⟩, ⟨_, rfl, by decide⟩, ⟨_, rfl, rfl⟩, ⟨_, rfl, by decide⟩⟩
/-- The first word of a command, and its last; a word offered that is then withdrawn or changed; and the three
phases with `cmd_ready` = 0. -/
theorem witness_OfferedWordEntersTheReceiveBuffer :
    ((offered ctxT3 [4#32]).rstN = true ∧ (offered ctxT3 [4#32]).rspSlot = none ∧
      commandComplete (offered ctxT3 [4#32]).rxBuf = false ∧ (offered ctxT3 [4#32]).cmdIn = [4#32]) ∧
    ((loaded ctxT3 [0x00010006#32]).send [1#32]).rspSlot = none ∧
    commandComplete ((loaded ctxT3 [0x00010006#32]).send [1#32]).rxBuf = false ∧
    ((loaded ctxT3 [0x00010006#32]).send [1#32]).cmdIn ≠ [] ∧
    (∃ t, ((offered ctxT3 [4#32]).driveRstN false).cmdReady = false ∧
      step ((offered ctxT3 [4#32]).driveRstN false) = .next t) ∧
    (∃ t, (pending ctxT3 ⟨.ok, 0#32⟩).cmdReady = false ∧ step (pending ctxT3 ⟨.ok, 0#32⟩) = .next t) ∧
    (∃ t, (loaded ctxT3 [4#32]).cmdReady = false ∧ step (loaded ctxT3 [4#32]) = .next t) :=
  ⟨by decide, by decide, by decide, by decide, ⟨_, by decide, rfl⟩, ⟨_, by decide, rfl⟩, ⟨_, by decide, rfl⟩⟩
theorem witness_ResponseIsHeldUntilTheHostAccepts :
    (pending ctxT3 ⟨.ok, 0#32⟩).rstN = true ∧ (pending ctxT3 ⟨.ok, 0#32⟩).rspSlot = some ⟨.ok, 0#32⟩ ∧
    (pending ctxT3 ⟨.ok, 0#32⟩).rspReady = true ∧
    ((pending ctxT3 ⟨.ok, 0#32⟩).driveRspReady false).rspReady = false := by decide
theorem witness_IncompleteCommandWaits :
    (loaded ctxT3 [0x00050006#32, 0x34333231#32]).rstN = true ∧
    (loaded ctxT3 [0x00050006#32, 0x34333231#32]).rspSlot = none ∧
    (loaded ctxT3 [0x00050006#32, 0x34333231#32]).cmdIn = [] ∧
    [0x34333231#32].length + 1 < commandLength 0x00050006#32 := by decide
theorem witness_HardwareResetTakesTheResetState :
    ((pending ctxT3 ⟨.ok, 1#32⟩).driveRstN false).rstN = false := by decide
/-- A host that accepts responses, and one that does not. -/
theorem witness_EveryRunEndsOrWaitsForTheHost :
    (((loaded ctxT3 [0x00050006#32]).send [1#32, 2#32, 4#32]).channelOk ∧
      ((loaded ctxT3 [0x00050006#32]).send [1#32, 2#32, 4#32]).rstN = true) ∧
    (((loaded ctxT3 [0x00050006#32]).send [1#32, 2#32, 4#32]).driveRspReady false).channelOk ∧
    (((loaded ctxT3 [0x00050006#32]).send [1#32, 2#32, 4#32]).driveRspReady false).rstN = true :=
  ⟨⟨⟨fun h => absurd rfl h, by decide⟩, rfl⟩, ⟨fun h => absurd rfl h, by decide⟩, rfl⟩
theorem witness_StreamIsConsumedOnceInOrder : ∃ t,
    ((loaded ctxT3 [0x4#32]).send [7#32]).channelOk ∧ step ((loaded ctxT3 [0x4#32]).send [7#32]) = .next t :=
  ⟨_, ⟨fun h => absurd rfl h, by decide⟩, rfl⟩
/-- A step that executes a command, and one that does not. -/
theorem witness_OneResponsePerCommandInOrder :
    (∃ t, step (loaded ctxT3 [0x4#32]) = .next t ∧ commandComplete (loaded ctxT3 [0x4#32]).rxBuf = true) ∧
    (∃ t, step (pending ctxT3 ⟨.ok, 1#32⟩) = .next t ∧ (pending ctxT3 ⟨.ok, 1#32⟩).rspSlot ≠ none) :=
  ⟨⟨_, rfl, by decide⟩, ⟨_, rfl, by decide⟩⟩

theorem ctxT3_ok : ctxT3.ok := fun _ => by decide
theorem ctxG32_ok : ctxG32.ok := fun _ => by decide

/-- A valid context, table or generic, whose next step executes a command that writes the register. -/
theorem witness_EveryStepKeepsTheContextInvariant :
    (∃ t, (loaded ctxT3 [0x0000FF05#32]).ctx.ok ∧ step (loaded ctxT3 [0x0000FF05#32]) = .next t) ∧
    (∃ t, (loaded ctxG32 [0x0000FF05#32]).ctx.ok ∧ step (loaded ctxG32 [0x0000FF05#32]) = .next t) :=
  ⟨⟨_, ctxT3_ok, rfl⟩, ⟨_, ctxG32_ok, rfl⟩⟩
theorem witness_EveryStepKeepsOneCommandInProgress :
    (∃ t, (pending ctxT3 ⟨.ok, 1#32⟩).channelOk ∧ step (pending ctxT3 ⟨.ok, 1#32⟩) = .next t) ∧
    (∃ t, (loaded ctxT3 [0x00010006#32]).channelOk ∧ step (loaded ctxT3 [0x00010006#32]) = .next t) :=
  ⟨⟨_, ⟨fun _ => rfl, by decide⟩, rfl⟩, ⟨_, ⟨fun h => absurd rfl h, by decide⟩, rfl⟩⟩
theorem witness_EveryStepKeepsResponsesLegal : ∃ t,
    (∀ r ∈ (pending ctxT3 ⟨.illegalCommand, 0#32⟩).responses, r.ok) ∧
    step (pending ctxT3 ⟨.illegalCommand, 0#32⟩) = .next t := by
  refine ⟨_, fun r hr => ?_, rfl⟩
  simp [pending, State.responses, State.reset] at hr
  subst hr
  exact ⟨fun _ => rfl, by decide⟩
/-- The longest command, complete but for its last word: 16384 words. -/
theorem witness_ReceiveBufferHoldsAtMostOneCommand :
    ∃ rest : List Word, rest.length = 16383 ∧ (loaded ctxT3 (0xFFFF0006#32 :: rest)).channelOk := by
  obtain ⟨rest, h⟩ : ∃ rest : List Word, rest.length = 16383 :=
    ⟨List.replicate 16383 0#32, List.length_replicate⟩
  refine ⟨rest, h, fun hs => absurd rfl hs, ?_⟩
  show rest.length + 1 ≤ commandLength 0xFFFF0006#32
  rw [h, test_longest_command]; decide

/-- An illegal word; the second clause has no hypotheses. -/
theorem witness_StatusFollowsTheOrderOfChecks :
    (loaded ctxX [0xFFFFFFFF#32]).rstN = true ∧ (loaded ctxX [0xFFFFFFFF#32]).rspSlot = none ∧
    (loaded ctxX [0xFFFFFFFF#32]).rxBuf = [0xFFFFFFFF#32] ∧ legal 0xFFFFFFFF#32 = false := by decide
/-- The values the checks meet at: REFL 32 and 33, widths 8, 7, 32, 33. -/
theorem witness_StatusFollowsTheOrderOfChecks_boundaries :
    ¬ 32 < (32#6).toNat ∧ 32 < (33#6).toNat ∧ (8#8).toNat = 8 ∧
    ¬ ((7#8).toNat = 8 ∨ (7#8).toNat = 16 ∨ (7#8).toNat = 24 ∨ (7#8).toNat = 32) ∧ (32#8).toNat = 32 ∧
    ¬ ((33#8).toNat = 8 ∨ (33#8).toNat = 16 ∨ (33#8).toNat = 24 ∨ (33#8).toNat = 32) := by decide
theorem witness_OnlyThreeCommandsRespondWithData : ∃ t r,
    exec .chksum (loaded ctxT1 []) = .next t ∧ t.rspSlot = some r ∧ r.data ≠ 0#32 :=
  ⟨_, _, rfl, rfl, by decide +kernel⟩
theorem witness_ErrorLeavesTheContextUnchanged : ∃ t r,
    exec (.proc 9#16 checkData) (loaded ctxX []) = .next t ∧ t.rspSlot = some r ∧ r.status ≠ .ok :=
  ⟨_, _, rfl, rfl, by decide⟩
/-- Every command, on a valid engine and without one. -/
theorem witness_CommandsWriteOnlyTheirFields :
    ∀ i ∈ everyKind, (∃ t, exec i (loaded ctxG32 []) = .next t) ∧ ∃ t, exec i (loaded ctxX []) = .next t :=
  fun i _ => ⟨exec_answers i _, exec_answers i _⟩
theorem witness_CreateGenericBuildsTheMaskedEngine : ∀ p ∈ [(8#8, 0xFF#32), (16#8, 0xFFFF#32), (24#8, 0xFFFFFF#32),
      (32#8, 0xFFFFFFFF#32)],
    (p.1.toNat = 8 ∨ p.1.toNat = 16 ∨ p.1.toNat = 24 ∨ p.1.toNat = 32) ∧ p.2.toNat = 2 ^ p.1.toNat - 1 :=
  List.all_iff_forall_prop.mp (by decide +kernel)
theorem witness_UnsupportedWidthChangesNothing :
    (∀ w ∈ [0#8, 7#8, 9#8, 12#8, 31#8, 33#8, 64#8, 255#8],
      ¬ (w.toNat = 8 ∨ w.toNat = 16 ∨ w.toNat = 24 ∨ w.toNat = 32)) ∧
    (∃ t, exec (.createGeneric 12#8 false false 1#32 2#32 3#32) (loaded ctxT3 []) = .next t ∧
      t.rspSlot = some ⟨.unsupportedWidth, 0#32⟩) ∧
    (loaded ctxT3 [0x00000C01#32, 1#32, 2#32, 3#32]).rxBuf = encode (.createGeneric 12#8 false false 1#32 2#32 3#32) :=
  ⟨by decide, ⟨_, rfl, rfl⟩, by decide⟩
theorem witness_DestroyedHandleWithoutAValidEngine :
    (∀ i ∈ [Instr.reset, .procb 1#8, .proc 9#16 checkData, .chksum, .compute 9#16 checkData, .destroy],
      needsEngine i = true ∧ (loaded ctxX (encode i)).ctx.valid = false ∧ (loaded ctxX (encode i)).rstN = true ∧
      (loaded ctxX (encode i)).rspSlot = none ∧ decode (loaded ctxX (encode i)).rxBuf = .instr i []) ∧
    (∃ t r, exec .chksum (loaded Ctx.zero []) = .next t ∧ t.rspSlot = some r ∧ r.status = .destroyedHandle) :=
  ⟨by decide, ⟨_, _, rfl, rfl, rfl⟩⟩

/-- For the statements whose hypothesis is a valid engine: both forms of a table engine and a generic engine. -/
theorem witness_valid_engines : (loaded ctxT1 []).ctx.valid = true ∧ (loaded ctxT3 []).ctx.valid = true ∧
    (loaded ctxG32 []).ctx.valid = true := by decide
theorem witness_ResetReloadsTheRegister : (loaded ctxT3a []).ctx.valid = true := by decide
theorem witness_ProcbMakesOneByteStep : (loaded ctxT1 []).ctx.valid = true := by decide
theorem witness_ProcStepsThroughItsBytes : (loaded ctxG8 []).ctx.valid = true := by decide
theorem witness_ChksumRespondsTheChecksum : (loaded ctxT3a []).ctx.valid = true := by decide
theorem witness_ComputeRespondsTheChecksumOfItsBytes : (loaded ctxT2 []).ctx.valid = true := by decide
theorem witness_DestroyClearsValid : (loaded ctxT3 []).ctx.valid = true := by decide
/-- Widths 0, 32, 33 and 63. -/
theorem witness_ReflRespondsTheReflectedValue :
    (0#6).toNat ≤ 32 ∧ (32#6).toNat ≤ 32 ∧ 32 < (33#6).toNat ∧ 32 < (63#6).toNat := by decide

theorem witness_RevReversesTheLowBits : (0 ≤ 32 ∧ 32 ≤ 32) ∧ 0 < 32 ∧ 31 < 32 := by decide
theorem witness_RevIsALinearInvolution : 0 ≤ 32 ∧ 32 ≤ 32 := by decide
theorem witness_ByteStepIsTheBitSerialRecurrence :
    (8 ∈ Config.supportedWidths ∧ (0xFF#32).toNat < 2 ^ 8) ∧ (16 ∈ Config.supportedWidths ∧ (0xFFFF#32).toNat < 2 ^ 16) ∧
    (24 ∈ Config.supportedWidths ∧ (0xFFFFFF#32).toNat < 2 ^ 24) ∧
    (32 ∈ Config.supportedWidths ∧ (0xFFFFFFFF#32).toNat < 2 ^ 32) := by decide
theorem witness_ChecksumIsBelowTheWidth : ∀ w ∈ [8, 16, 24, 32], w ∈ Config.supportedWidths := by decide
theorem witness_TableStepAgreesWithTheBitSerialStep :
    ((catalogue .ccitt).refin = false ∧ (0xFFFF#32).toNat < 2 ^ (catalogue .ccitt).width) ∧
    ((catalogue .crc32).refin = true ∧ (0xFFFFFFFF#32).toNat < 2 ^ (catalogue .crc32).width) := by decide
theorem witness_TableChecksumIsTheInternalRegister :
    ctxT3.ok ∧ ctxT3.valid = true ∧ ctxT3.kind = .table := ⟨ctxT3_ok, rfl, rfl⟩
/-- A table engine and its generic twin; two destroyed contexts that differ. -/
theorem witness_IndistinguishableContextsRespondAlike :
    (∃ t, (loaded ctxT3 [0x0000FF05#32]).ctx.ok ∧ ctxG32.ok ∧
      (loaded ctxT3 [0x0000FF05#32]).ctx.indistinguishable ctxG32 ∧ step (loaded ctxT3 [0x0000FF05#32]) = .next t) ∧
    (∃ t, (loaded ctxX [0x4#32]).ctx.ok ∧ Ctx.zero.ok ∧ (loaded ctxX [0x4#32]).ctx.indistinguishable Ctx.zero ∧
      step (loaded ctxX [0x4#32]) = .next t) :=
  ⟨⟨_, ctxT3_ok, ctxG32_ok, .inr (.inr (by decide +kernel)), rfl⟩,
   ⟨_, fun h => by simp [loaded, ctxX] at h, fun h => by simp [Ctx.zero] at h, .inr (.inl (by decide)), rfl⟩⟩
theorem witness_GenericTwinOfACatalogueEntry : ∃ t u,
    (16#8).toNat = (catalogue .ccitt).width ∧ (32#8).toNat = (catalogue .crc32).width ∧
    exec (.createStandard .ccitt) (loaded ctxX []) = .next t ∧
    exec (.createGeneric 16#8 (catalogue .ccitt).refin (catalogue .ccitt).refout (catalogue .ccitt).poly
      (catalogue .ccitt).init (catalogue .ccitt).xorout) (loaded ctxT3 []) = .next u :=
  ⟨_, _, rfl, rfl, rfl, rfl⟩
theorem witness_BytesArePackedLowByteFirst :
    checkData.length = ((9#16).toNat + 3) / 4 ∧ ([] : List Word).length = ((0#16).toNat + 3) / 4 ∧ 8 < (9#16).toNat := by
  decide
/-- The data words of V34, with padding bytes 0xAA and 0. -/
theorem witness_PaddingBytesAreIgnored :
    [0x34333231#32, 0xAAAAAA35#32].length = ((5#16).toNat + 3) / 4 ∧
    [0x34333231#32, 0x00000035#32].length = ((5#16).toNat + 3) / 4 ∧
    ∀ k, k < (5#16).toNat →
      dataByte [0x34333231#32, 0xAAAAAA35#32] k = dataByte [0x34333231#32, 0x00000035#32] k := by decide
theorem witness_ResetGivesTheEmptyChecksum :
    (loaded ctxT3 []).ctx.ok ∧ (loaded ctxT3 []).ctx.valid = true ∧
    (loaded ctxG32 []).ctx.ok ∧ (loaded ctxG32 []).ctx.valid = true := ⟨ctxT3_ok, rfl, ctxG32_ok, rfl⟩
/-- "1234" and "56789" against "123456789" (V32, V33), and one byte. -/
theorem witness_SplitInputEqualsWholeInput :
    (∃ t u, unpack 9#16 checkData = unpack 4#16 [0x34333231#32] ++ unpack 5#16 [0x38373635#32, 0x39#32] ∧
      exec (.proc 4#16 [0x34333231#32]) (loaded ctxT3 []) = .next t ∧
      exec (.proc 5#16 [0x38373635#32, 0x39#32]) t = .next u) ∧
    unpack 1#16 [0xAAAAAA31#32] = [0x31#8] :=
  ⟨⟨_, _, by decide, rfl, rfl⟩, by decide⟩
/-- CHKSUM, then another directly, then after a list that has each of the three commands between; and the empty list. -/
theorem witness_ChksumIsARepeatableRead : ∃ t,
    exec .chksum (loaded ctxT3a []) = .next t ∧ (∃ v, exec .chksum t = .next v) ∧ runReads [] t t ∧
    (∃ u v, runReads [.refl 33#6 1#32, .chksum, .illegal, .refl 8#6 0x31#32] t u ∧ exec .chksum u = .next v) :=
  ⟨_, rfl, ⟨_, rfl⟩, rfl, _, _, ⟨_, rfl, _, rfl, _, rfl, _, rfl, rfl⟩, rfl⟩
theorem witness_ComputeIsResetProcChksum : ∃ t u v,
    exec .reset (loaded ctxT3a []) = .next t ∧ exec (.proc 9#16 checkData) t = .next u ∧ exec .chksum u = .next v :=
  ⟨_, _, _, rfl, rfl, rfl⟩
theorem witness_EmptyInputChecksumsOfTheCatalogue :
    ∀ a, ∃ t, exec (.createStandard a) (loaded ctxX []) = .next t := fun _ => exec_answers _ _
theorem witness_CheckValuesOfTheCatalogue :
    ∀ a, ∃ t, exec (.createStandard a) State.reset = .next t := fun _ => exec_answers _ _

end Sys2Proof.Tests
end

section
/-! The state right after hardware reset, one lemma per field that R36 speaks of. -/

namespace Sys2Proof.Machine

@[simp] theorem State.reset_ctx : State.reset.ctx = Ctx.zero := rfl
@[simp] theorem State.reset_cp : State.reset.cp = 0 := rfl
@[simp] theorem State.reset_rxBuf : State.reset.rxBuf = [] := rfl
@[simp] theorem State.reset_rspSlot : State.reset.rspSlot = none := rfl

/-- Settles O16: field by field; the context is `Ctx.zero`, whose fields are the literals of R36. -/
theorem resetStateIsAllZero : Obligations.ResetStateIsAllZero :=
  ⟨State.reset_ctx, State.reset_cp, State.reset_rxBuf, State.reset_rspSlot⟩

end Sys2Proof.Machine
end

section
/-! The bytes of PROC and COMPUTE in their data words (20_memory.md R46, R47): the bytes of a list of words one by
one, and the byte sequence `unpack` takes from them, given by its length and its entries. -/

namespace Sys2Proof.Machine

open Sys2Proof.Reference

/-! ### The bytes of a list of data words -/

@[simp] theorem wordBytes_length (w : Word) : (wordBytes w).length = 4 := rfl

theorem wordBytes_getElem? (w : Word) {k : Nat} (hk : k < 4) :
    (wordBytes w)[k]? = some (w.extractLsb' (8 * k) 8) := by
  interval_cases k <;> rfl

@[simp] theorem flatMap_wordBytes_length (data : List Word) : (data.flatMap wordBytes).length = 4 * data.length := by
  induction data with
  | nil => rfl
  | cons w ws ih => rw [List.flatMap_cons, List.length_append, ih, wordBytes_length, List.length_cons]; omega

theorem dataByte_cons_of_lt (w : Word) (ws : List Word) {k : Nat} (hk : k < 4) :
    dataByte (w :: ws) k = w.extractLsb' (8 * k) 8 := by
  rw [dataByte, Nat.div_eq_of_lt hk, Nat.mod_eq_of_lt hk, List.getD_cons_zero]

theorem dataByte_cons_add_four (w : Word) (ws : List Word) (k : Nat) :
    dataByte (w :: ws) (k + 4) = dataByte ws k := by
  rw [dataByte, Nat.add_div_right k (by decide), Nat.add_mod_right, List.getD_cons_succ, dataByte]

/-- Byte `k` of the words is the one R46 names: the first word has bytes 0 to 3, the later words the rest. -/
theorem flatMap_wordBytes_getElem? (data : List Word) {k : Nat} (hk : k < 4 * data.length) :
    (data.flatMap wordBytes)[k]? = some (dataByte data k) := by
  induction data generalizing k with
  | nil => exact absurd hk (Nat.not_lt_zero k)
  | cons w ws ih =>
    rw [List.flatMap_cons]
    obtain hlt | ⟨j, rfl⟩ : k < 4 ∨ ∃ j, k = j + 4 := (Nat.lt_or_ge k 4).imp_right Nat.exists_eq_add_of_le'
    · rw [List.getElem?_append_left hlt, wordBytes_getElem? w hlt, dataByte_cons_of_lt w ws hlt]
    · have hj : j < 4 * ws.length := by rw [List.length_cons] at hk; omega
      rw [List.getElem?_append_right (Nat.le_add_left 4 j), wordBytes_length, Nat.add_sub_cancel, ih hj,
        dataByte_cons_add_four]

/-! ### The byte sequence of a command -/

theorem unpack_length {cnt : BitVec 16} {data : List Word} (h : data.length = (cnt.toNat + 3) / 4) :
    (unpack cnt data).length = cnt.toNat := by
  rw [unpack, List.length_take, flatMap_wordBytes_length]; omega

theorem unpack_getElem? {cnt : BitVec 16} {data : List Word} (h : data.length = (cnt.toNat + 3) / 4) {k : Nat}
    (hk : k < cnt.toNat) : (unpack cnt data)[k]? = some (dataByte data k) := by
  rw [unpack, List.getElem?_take_of_lt hk, flatMap_wordBytes_getElem? data (by omega)]

/-- The byte sequence is the bytes `0` to `CNT - 1` of the words, so it holds none of the padding. -/
theorem unpack_eq_map_dataByte {cnt : BitVec 16} {data : List Word} (h : data.length = (cnt.toNat + 3) / 4) :
    unpack cnt data = (List.range cnt.toNat).map (dataByte data) := by
  apply List.ext_getElem?
  intro k
  obtain hk | hk := Nat.lt_or_ge k cnt.toNat
  · rw [unpack_getElem? h hk, List.getElem?_map, List.getElem?_range hk, Option.map_some]
  · rw [List.getElem?_eq_none (by rwa [unpack_length h]), List.getElem?_eq_none (by simpa using hk)]

theorem unpack_congr {cnt : BitVec 16} {d₁ d₂ : List Word} (h₁ : d₁.length = (cnt.toNat + 3) / 4)
    (h₂ : d₂.length = (cnt.toNat + 3) / 4) (h : ∀ k, k < cnt.toNat → dataByte d₁ k = dataByte d₂ k) :
    unpack cnt d₁ = unpack cnt d₂ := by
  rw [unpack_eq_map_dataByte h₁, unpack_eq_map_dataByte h₂]
  exact List.map_congr_left fun k hk => h k (List.mem_range.mp hk)

/-! ### PROC and COMPUTE see the byte sequence only -/

theorem exec_proc (cnt : BitVec 16) (data : List Word) (s : State) :
    exec (.proc cnt data) s = engineCommand s (s.ctx.process (unpack cnt data)) 0#32 := rfl

theorem exec_compute (cnt : BitVec 16) (data : List Word) (s : State) :
    exec (.compute cnt data) s = engineCommand s (s.ctx.reload.process (unpack cnt data))
      (s.ctx.reload.process (unpack cnt data)).final := rfl

/-! ### The obligations -/

/-- Settles O52: the bytes of the words one by one, of which `unpack` takes the first `CNT`. -/
theorem bytesArePackedLowByteFirst : Obligations.BytesArePackedLowByteFirst :=
  ⟨fun _ _ h => ⟨unpack_length h, fun _ hk => unpack_getElem? h hk⟩, by decide⟩

/-- Settles O53: both commands read their data words through `unpack` only, which holds none of the padding. -/
theorem paddingBytesAreIgnored : Obligations.PaddingBytesAreIgnored := by
  intro cnt d₁ d₂ s h₁ h₂ hbytes
  have hunpack : unpack cnt d₁ = unpack cnt d₂ := unpack_congr h₁ h₂ hbytes
  refine ⟨fun hcnt => List.eq_nil_of_length_eq_zero ?_, ?_, ?_⟩
  · rw [h₁, hcnt]
  · rw [exec_proc, exec_proc, hunpack]
  · rw [exec_compute, exec_compute, hunpack]

end Sys2Proof.Machine
end

section
/-! The opcode map read by OP (30_encoding.md R70 to R74): the OP of each opcode, the length it asks for, and why a
word is illegal. A word can match only the row of its own OP, so a word without such a row, or one that differs from it
in a reserved bit, matches none. -/

namespace Sys2Proof

/-! ### Rows and opcodes -/

/-- The column OP of the opcode map (R72), tied to the map by `opField_pattern`. -/
def Op.number : Op → BitVec 4
  | .createGeneric => 0x1#4
  | .createStandard => 0x2#4
  | .reset => 0x3#4
  | .chksum => 0x4#4
  | .procb => 0x5#4
  | .proc => 0x6#4
  | .destroy => 0x7#4
  | .compute => 0x8#4
  | .refl => 0x9#4

/-- The assigned OPs are 0x1 to 0x9. -/
theorem Op.number_range (op : Op) : 0x1 ≤ op.number.toNat ∧ op.number.toNat ≤ 0x9 := by
  cases op <;> decide

theorem opField_pattern {r : Row} (hr : r ∈ opcodeMap) : opField r.pattern = r.op.number :=
  (by decide : ∀ r ∈ opcodeMap, opField r.pattern = r.op.number) r hr

theorem opField_of_matchOp {cw : Word} {op : Op} (h : matchOp cw = some op) : opField cw = op.number := by
  obtain ⟨r, hr, rfl, hm⟩ := matches_of_matchOp h
  rw [opField_of_matches hr hm, opField_pattern hr]

/-- At most one row matches a word: both rows would have the word's OP (R71). -/
theorem row_eq_of_matches {cw : Word} {r₁ r₂ : Row} (hr₁ : r₁ ∈ opcodeMap) (hr₂ : r₂ ∈ opcodeMap)
    (h₁ : cw &&& r₁.mask = r₁.pattern) (h₂ : cw &&& r₂.mask = r₂.pattern) : r₁ = r₂ :=
  row_eq_of_opField hr₁ hr₂ ((opField_of_matches hr₁ h₁).symm.trans (opField_of_matches hr₂ h₂))

theorem exists_matchOp_of_legal {cw : Word} (h : legal cw = true) : ∃ op, matchOp cw = some op := by
  obtain ⟨r, hr, hm⟩ := (legal_iff cw).mp h
  exact ⟨r.op, matchOp_of_matches hr hm⟩

/-! ### Illegal words -/

theorem legal_eq_false_iff (cw : Word) : legal cw = false ↔ ∀ r ∈ opcodeMap, cw &&& r.mask ≠ r.pattern := by
  rw [← Bool.not_eq_true, legal_iff]
  simp only [not_exists, not_and, ne_eq]

/-- A word whose OP is no row's matches no row (R73). -/
theorem illegal_of_reservedOp {cw : Word} (h : opField cw = 0x0#4 ∨ 0xA ≤ (opField cw).toNat) :
    legal cw = false := by
  rw [legal_eq_false_iff]
  intro r hr hm
  have hrange := r.op.number_range
  rw [← opField_of_matchOp (matchOp_of_matches hr hm)] at hrange
  obtain h | h := h
  · rw [h] at hrange
    exact absurd hrange (by decide)
  · omega

/-- A word that differs from the row of its OP matches no row, since any other row has another OP (R74). -/
theorem illegal_of_reservedBit {cw : Word} {r : Row} (hr : r ∈ opcodeMap) (hop : opField cw = opField r.pattern)
    (hne : cw &&& r.mask ≠ r.pattern) : legal cw = false := by
  rw [legal_eq_false_iff]
  intro q hq hm
  have hqr : q = r := row_eq_of_opField hq hr ((opField_of_matches hq hm).symm.trans hop)
  exact hne (hqr ▸ hm)

/-! ### The length -/

theorem commandLength_of_matchOp {cw : Word} {op : Op} (h : matchOp cw = some op) :
    commandLength cw = 1 + operandWords op cw := by
  rw [commandLength, h]

theorem dataWords_cntField (cw : Word) : dataWords (cntField cw) = ((cw >>> 16).toNat + 3) / 4 := by
  have hlt : cw.toNat / 2 ^ 16 < 2 ^ 16 := Nat.div_lt_of_lt_mul cw.isLt
  rw [dataWords, cntField, BitVec.extractLsb'_toNat, BitVec.toNat_ushiftRight, Nat.shiftRight_eq_div_pow,
    Nat.mod_eq_of_lt hlt]

/-- The length rule of a legal word, by its OP (R70). -/
theorem one_add_operandWords (op : Op) (cw : Word) : 1 + operandWords op cw =
    if op.number = 0x1#4 then 4
    else if op.number = 0x6#4 ∨ op.number = 0x8#4 then 1 + ((cw >>> 16).toNat + 3) / 4
    else if op.number = 0x9#4 then 2
    else 1 := by
  cases op with
  | proc => rw [operandWords, dataWords_cntField]; rfl
  | compute => rw [operandWords, dataWords_cntField]; rfl
  | _ => rfl

end Sys2Proof

namespace Sys2Proof.Machine

/-! ### The step on an illegal word -/

/-- The step that executes an illegal word: `illegalCommand`, then the bookkeeping of a command of one word. -/
theorem step_of_illegal {s : State} {cw : Word} {rest : List Word} (hrst : s.rstN = true) (hslot : s.rspSlot = none)
    (hbuf : s.rxBuf = cw :: rest) (hill : legal cw = false) :
    step s = .next { s with rspSlot := some ⟨.illegalCommand, 0#32⟩, cp := s.cp + 1, rxBuf := [] } := by
  have hlen : commandLength cw = 1 := commandLength_of_illegal hill
  have hcomplete : commandComplete s.rxBuf = true := by
    rw [hbuf, commandComplete_cons, hlen]; exact Nat.le_add_left 1 _
  have hwords : commandWords s.rxBuf = 1 := by rw [hbuf, commandWords, hlen]
  have hdecode : decode s.rxBuf = .illegal (illegalReason cw) rest := by rw [hbuf, decode_illegal_of hill]
  rw [step_executing hrst hslot hcomplete, runCommand, hdecode, hwords]
  rfl

/-! ### The obligations -/

/-- Settles O3: the row of a word is the row of its OP, and the decoder answers by whether there is one. -/
theorem everyWordIsOneLegalCommandOrIllegal : Obligations.EveryWordIsOneLegalCommandOrIllegal := by
  intro cw
  refine ⟨legal_iff cw, fun r₁ hr₁ r₂ hr₂ => row_eq_of_matches hr₁ hr₂, fun ops hops => ?_⟩
  refine ⟨fun hleg => ?_, fun hill => ?_⟩
  · obtain ⟨op, hop⟩ := exists_matchOp_of_legal hleg
    have hlen : ops.length = operandWords op cw := by rw [commandLength_of_matchOp hop] at hops; omega
    have hdecode := decode_cons_of_matchOp hop hlen []
    rw [List.append_nil] at hdecode
    exact ⟨_, hdecode⟩
  · have hnil : ops = [] := by
      rw [commandLength_of_illegal hill] at hops
      exact List.eq_nil_of_length_eq_zero (Nat.succ.inj hops)
    rw [hnil]
    exact ⟨_, decode_illegal_of hill []⟩

/-- Settles O4: a legal word has the OP of its opcode, which decides its length. -/
theorem commandLengthFollowsTheCommandWord : Obligations.CommandLengthFollowsTheCommandWord := by
  refine ⟨fun cw => ?_, by decide⟩
  cases hleg : legal cw with
  | false => exact commandLength_of_illegal hleg
  | true =>
    obtain ⟨op, hop⟩ := exists_matchOp_of_legal hleg
    have hnumber : cw.extractLsb' 0 4 = op.number := opField_of_matchOp hop
    rw [hnumber, commandLength_of_matchOp hop]
    exact one_add_operandWords op cw

/-- Settles O6: a reserved OP is no row's, and an illegal word is one word long and responds `IllegalCommand`. -/
theorem reservedOpcodeAnswersIllegalCommand : Obligations.ReservedOpcodeAnswersIllegalCommand := by
  refine ⟨fun s cw hrst hslot hbuf hop => ?_, illegal_of_reservedOp (.inl (by decide))⟩
  have hill : legal cw = false := illegal_of_reservedOp hop
  exact ⟨hill, commandLength_of_illegal hill, step_of_illegal hrst hslot hbuf hill⟩

/-- Settles O7: the only row with the word's OP does not match, so the word is illegal like a reserved OP. -/
theorem reservedBitAnswersIllegalCommand : Obligations.ReservedBitAnswersIllegalCommand := by
  intro s cw r hrst hslot hbuf hr hop hne
  have hill : legal cw = false := illegal_of_reservedBit hr hop hne
  exact ⟨hill, commandLength_of_illegal hill, step_of_illegal hrst hslot hbuf hill⟩

end Sys2Proof.Machine
end

section
/-! The bit reflector as the sum of R83 (40_bit_reflector.md): the sum obeys the recurrence that defines `rev`, whose
two terms never carry into each other, so the value of `rev` is the sum. -/

namespace Sys2Proof.Machine

open Sys2Proof.Reference

/-- One more bit doubles the weight of the bits before it and enters with weight 1. -/
theorem revNat_succ (v n : Nat) : revNat v (n + 1) = 2 * revNat v n + (v.testBit n).toNat := by
  have hdouble : ∀ i ∈ List.range n,
      (v.testBit i).toNat * 2 ^ (n + 1 - 1 - i) = 2 * ((v.testBit i).toNat * 2 ^ (n - 1 - i)) := by
    intro i hi
    have hexp : n + 1 - 1 - i = (n - 1 - i) + 1 := by have := List.mem_range.mp hi; omega
    rw [hexp, pow_succ]; ring
  rw [revNat, List.range_succ, List.map_append, List.sum_append, List.map_congr_left hdouble,
    List.sum_map_mul_left, ← revNat]
  simp

/-- The recurrence of `rev` on natural numbers: below 32 bits the shift loses nothing, and the new bit falls on the
zero that the shift brings in. -/
theorem rev_succ_toNat (v : Word) {n : Nat} (hn : n < 32) :
    (rev v (n + 1)).toNat = 2 * (rev v n).toNat + (v.getLsbD n).toNat := by
  have hshift : (rev v n).toNat <<< 1 < 2 ^ 32 :=
    calc (rev v n).toNat <<< 1 = (rev v n).toNat * 2 := Nat.shiftLeft_eq _ 1
      _ < 2 ^ n * 2 := Nat.mul_lt_mul_of_pos_right (rev_lt v hn.le) Nat.two_pos
      _ = 2 ^ (n + 1) := (pow_succ 2 n).symm
      _ ≤ 2 ^ 32 := Nat.pow_le_pow_right Nat.two_pos hn
  have hbit : (v.getLsbD n).toNat < 2 ^ 1 := Bool.toNat_lt _
  rw [rev, BitVec.toNat_or, BitVec.toNat_shiftLeft, BitVec.toNat_setWidth, BitVec.toNat_ofBool,
    Nat.mod_eq_of_lt (hbit.trans (by decide)), Nat.mod_eq_of_lt hshift,
    ← Nat.shiftLeft_add_eq_or_of_lt hbit, Nat.shiftLeft_eq, pow_one, mul_comm]

theorem rev_toNat (v : Word) {n : Nat} (hn : n ≤ 32) : (rev v n).toNat = revNat v.toNat n := by
  induction n with
  | zero => rfl
  | succ n ih => rw [rev_succ_toNat v hn, ih (Nat.le_of_succ_le hn), revNat_succ, BitVec.getLsbD]

/-- R83's equivalent form: bit `i` of the operand is bit `n-1-i` of the result. -/
theorem rev_getLsbD_mirror (v : Word) {n i : Nat} (hn : n ≤ 32) (hi : i < n) :
    (rev v n).getLsbD (n - 1 - i) = v.getLsbD i := by
  have hlt : n - 1 - i < n := by omega
  have hmirror : n - 1 - (n - 1 - i) = i := by omega
  rw [rev_getLsbD v hn, hmirror, decide_eq_true hlt, Bool.true_and]

/-- The bits at and above `n` do not enter (R84). -/
theorem rev_and_mask (v : Word) {n : Nat} (hn : n ≤ 32) : rev (v &&& mask n) n = rev v n := by
  apply BitVec.eq_of_getLsbD_eq
  intro i _
  rw [rev_getLsbD _ hn, rev_getLsbD _ hn, and_mask_getLsbD]
  by_cases hi : i < n
  · have hlt : n - 1 - i < n := by omega
    rw [decide_eq_true hlt, Bool.and_true]
  · rw [decide_eq_false hi, Bool.false_and, Bool.false_and]

/-- Settles O41: the sum by induction on the width, the rest from the bits of `rev`. -/
theorem revReversesTheLowBits : Obligations.RevReversesTheLowBits := fun v _ hn =>
  ⟨rev_toNat v hn, fun _ hi => rev_getLsbD_mirror v hn hi, rev_lt v hn, (rev_and_mask v hn).symm⟩

end Sys2Proof.Machine
end

section
/-! The bit-serial datapath on natural numbers (41_crc_generic_bitwise.md R90 to R95): each operation of the datapath,
read as a natural number, is the operation of the pseudocode. A word loses the bits that a shift moves out at its top;
those are bits that the pseudocode masks away (log entry 5). -/

namespace Sys2Proof.Machine

open Sys2Proof.Reference

theorem supportedWidths_bounds {w : Nat} (hw : w ∈ Config.supportedWidths) : 8 ≤ w ∧ w ≤ 32 :=
  (by decide : ∀ w ∈ Config.supportedWidths, 8 ≤ w ∧ w ≤ 32) w hw

/-! ### The byte on its way into the register -/

theorem revByte_toNat (b : Byte) : (revByte b).toNat = revNat b.toNat 8 := by
  have hlt : (rev (b.setWidth 32) 8).toNat < 2 ^ 8 := rev_lt _ (by decide)
  rw [revByte, BitVec.toNat_setWidth, Nat.mod_eq_of_lt hlt, rev_toNat _ (by decide),
    BitVec.toNat_setWidth_of_le (by decide)]

theorem reflectIn_toNat (refin : Bool) (b : Byte) :
    (reflectIn refin b).toNat = if refin then revNat b.toNat 8 else b.toNat := by
  cases refin with
  | false => rfl
  | true => exact revByte_toNat b

/-- The folded byte stays within the word, since its 8 bits are moved up by at most 24. -/
theorem fold_toNat {w : Nat} (h8 : 8 ≤ w) (hw : w ≤ 32) (reg : Word) (b : Byte) :
    (fold w reg b).toNat = reg.toNat ^^^ (b.toNat <<< (w - 8)) := by
  have hfit : b.toNat <<< (w - 8) < 2 ^ 32 :=
    calc b.toNat <<< (w - 8) < 2 ^ (8 + (w - 8)) := Nat.shiftLeft_lt b.isLt
      _ ≤ 2 ^ 32 := Nat.pow_le_pow_right Nat.two_pos (by omega)
  rw [fold, BitVec.toNat_xor, BitVec.toNat_shiftLeft, BitVec.toNat_setWidth_of_le (by decide),
    Nat.mod_eq_of_lt hfit]

/-! ### The iterations -/

/-- The mask drops every bit that the shift moves out of the word. -/
theorem shiftLeft_toNat_and {w : Nat} (hw : w ≤ 32) (r : Word) (k : Nat) :
    (r <<< k).toNat &&& (2 ^ w - 1) = (r.toNat <<< k) &&& (2 ^ w - 1) := by
  rw [BitVec.toNat_shiftLeft, Nat.and_two_pow_sub_one_eq_mod, Nat.and_two_pow_sub_one_eq_mod,
    Nat.mod_mod_of_dvd _ (Nat.pow_dvd_pow 2 hw)]

theorem shiftXor_toNat {w : Nat} (hw : w ≤ 32) (poly r : Word) :
    (shiftXor w poly r).toNat = shiftXorNat w poly.toNat r.toNat := by
  rw [shiftXor, shiftXorNat, ← BitVec.getLsbD]
  split
  · rw [BitVec.toNat_and, mask_toNat hw, BitVec.toNat_xor, Nat.and_xor_distrib_right,
      shiftLeft_toNat_and hw, ← Nat.and_xor_distrib_right]
  · rw [BitVec.toNat_and, mask_toNat hw, shiftLeft_toNat_and hw]

theorem iterate_eq_iterate (f : Word → Word) (n : Nat) : iterate f n = f^[n] := by
  induction n with
  | zero => rfl
  | succ n ih => funext r; rw [iterate, ih, Function.iterate_succ_apply]

theorem iterate_shiftXor_toNat {w : Nat} (hw : w ≤ 32) (poly : Word) (n : Nat) (r : Word) :
    (iterate (shiftXor w poly) n r).toNat = (shiftXorNat w poly.toNat)^[n] r.toNat := by
  have hstep : Function.Semiconj BitVec.toNat (shiftXor w poly) (shiftXorNat w poly.toNat) := shiftXor_toNat hw poly
  rw [iterate_eq_iterate]
  exact hstep.iterate_right n r

/-! ### The byte step and the checksum -/

theorem gstep_toNat {w : Nat} (h8 : 8 ≤ w) (hw : w ≤ 32) (poly : Word) (refin : Bool) (reg : Word) (b : Byte) :
    (gstep w poly refin reg b).toNat = gstepNat w poly.toNat refin reg.toNat b.toNat := by
  rw [gstep, iterate_shiftXor_toNat hw, fold_toNat h8 hw, reflectIn_toNat, gstepNat]

theorem gfinal_toNat {w : Nat} (hw : w ≤ 32) (xorout : Word) (refout : Bool) (reg : Word) :
    (gfinal w xorout refout reg).toNat = gfinalNat w xorout.toNat refout reg.toNat := by
  rw [gfinal, BitVec.toNat_and, mask_toNat hw, BitVec.toNat_xor, apply_ite BitVec.toNat, rev_toNat reg hw, gfinalNat]

/-- Settles O43: the fold and each iteration are those of the pseudocode, and every iteration ends with the mask, so
the bound on the register before the step is not needed. -/
theorem byteStepIsTheBitSerialRecurrence : Obligations.ByteStepIsTheBitSerialRecurrence := by
  intro w poly reg refin b hw _
  obtain ⟨h8, h32⟩ := supportedWidths_bounds hw
  exact ⟨gstep_toNat h8 h32 poly refin reg b, gstep_lt w poly refin reg b⟩

/-- Settles O44: the reflector is the sum of R83, and the mask is taken last. -/
theorem checksumIsBelowTheWidth : Obligations.ChecksumIsBelowTheWidth := by
  intro w xorout reg refout hw
  obtain ⟨_, h32⟩ := supportedWidths_bounds hw
  exact ⟨gfinal_toNat h32 xorout refout reg, gfinal_lt w xorout refout reg⟩

end Sys2Proof.Machine
end

section
/-! The table datapath simulates the bit-serial one (42_crc_table_accelerated.md R109, R110). The relation between the
two registers is `tcanon`: the internal register of a table engine is the canonical register seen through it, and
seeing it through `tcanon` twice gives it back. It holds of the start values and every byte step keeps it, so the
checksums agree. -/

namespace Sys2Proof.Machine

theorem gproc_lt {w : Nat} {reg : Word} (h : reg.toNat < 2 ^ w) (poly : Word) (refin : Bool) (s : List Byte) :
    (gproc w poly refin reg s).toNat < 2 ^ w := by
  induction s generalizing reg with
  | nil => exact h
  | cons b s ih => exact ih (gstep_lt w poly refin reg b)

/-! ### The canonical register -/

theorem tcanon_of_refin {a : Alg} (h : (catalogue a).refin = true) (reg : Word) :
    tcanon a reg = rev reg (catalogue a).width := if_pos h

theorem tcanon_of_not_refin {a : Alg} (h : (catalogue a).refin = false) (reg : Word) : tcanon a reg = reg := by
  rw [tcanon, h, if_neg Bool.false_ne_true]

theorem tcanon_tcanon (a : Alg) {reg : Word} (h : reg.toNat < 2 ^ (catalogue a).width) :
    tcanon a (tcanon a reg) = reg := by
  cases hr : (catalogue a).refin with
  | false => rw [tcanon_of_not_refin hr, tcanon_of_not_refin hr]
  | true => rw [tcanon_of_refin hr, tcanon_of_refin hr, rev_rev_of_lt (catalogue_width_le a) h]

/-- A table engine starts from the start value of the bit-serial one, in its own form (R106). -/
theorem treset_eq_tcanon (a : Alg) : treset a = tcanon a (catalogue a).init := rfl

/-! ### One byte -/

/-- The normal form: the table entry of the top byte and the shift are the two halves of the bit-serial step. -/
theorem tstepN_eq_gstep {a : Alg} (hr : (catalogue a).refin = false) {reg : Word}
    (h : reg.toNat < 2 ^ (catalogue a).width) (b : Byte) :
    tstepN a reg b = gstep (catalogue a).width (catalogue a).poly false reg b := by
  rw [gstep_split (catalogue_width_le a) (catalogue_width_ge a) _ h, tstepN, rom_of_not_refin hr, xor_and_mask,
    and_mask_of_lt (tn_lt a _), tn, BitVec.xor_comm]

/-- The reflected form: the table entry of the low byte and the shift are eight iterations of the reflected recurrence
on the register with the raw byte folded in. -/
theorem tstepR_eq_iterate {a : Alg} (hr : (catalogue a).refin = true) (reg : Word) (b : Byte) :
    tstepR a reg b =
      iterate (shiftXorLsb (rev (catalogue a).poly (catalogue a).width)) 8 (reg ^^^ b.setWidth 32) := by
  have hbyte : b.setWidth 32 >>> 8 = 0#32 :=
    BitVec.eq_of_toNat_eq (by
      rw [BitVec.toNat_ushiftRight, BitVec.toNat_setWidth_of_le (by decide)]
      exact Nat.shiftRight_eq_zero _ _ b.isLt)
  have hhigh : (reg ^^^ b.setWidth 32) >>> 8 = reg >>> 8 := by
    rw [BitVec.ushiftRight_xor_distrib, hbyte, BitVec.xor_zero]
  have hlow : (reg ^^^ b.setWidth 32).setWidth 8 = reg.setWidth 8 ^^^ b := by
    rw [BitVec.setWidth_xor, BitVec.setWidth_setWidth_of_le b (by decide), BitVec.setWidth_eq]
  rw [iterate_shiftXorLsb_byte, hhigh, hlow, tstepR, rom_of_refin hr, tr]

/-- Mirroring carries the bit-serial step of the reflected byte over to the reflected form of the table step. -/
theorem tstepR_rev {a : Alg} (hr : (catalogue a).refin = true) (reg : Word) (b : Byte) :
    tstepR a (rev reg (catalogue a).width) b =
      rev (gstep (catalogue a).width (catalogue a).poly true reg b) (catalogue a).width := by
  have hw := catalogue_width_le a
  have h8 := catalogue_width_ge a
  rw [tstepR_eq_iterate hr, gstep, rev_iterate_shiftXor hw (Nat.le_trans (by decide) h8), reflectIn,
    if_pos rfl, rev_fold hw h8]

theorem tstep_tcanon (a : Alg) {reg : Word} (h : reg.toNat < 2 ^ (catalogue a).width) (b : Byte) :
    tstep a (tcanon a reg) b =
      tcanon a (gstep (catalogue a).width (catalogue a).poly (catalogue a).refin reg b) := by
  cases hr : (catalogue a).refin with
  | false =>
    rw [tcanon_of_not_refin hr, tcanon_of_not_refin hr, tstep, hr, if_neg Bool.false_ne_true, tstepN_eq_gstep hr h]
  | true => rw [tcanon_of_refin hr, tcanon_of_refin hr, tstep, if_pos hr, tstepR_rev hr]

/-! ### The whole sequence -/

theorem tproc_tcanon (a : Alg) {reg : Word} (h : reg.toNat < 2 ^ (catalogue a).width) (s : List Byte) :
    tproc a (tcanon a reg) s =
      tcanon a (gproc (catalogue a).width (catalogue a).poly (catalogue a).refin reg s) := by
  induction s generalizing reg with
  | nil => rfl
  | cons b s ih => rw [tproc, gproc, tstep_tcanon a h, ih (gstep_lt _ _ _ reg b)]

/-- Settles O48: byte by byte the internal register stays the canonical one seen through `tcanon`, and the checksum of
a table engine is taken from its canonical register. -/
theorem tableAndGenericChecksumsAgree : Obligations.TableAndGenericChecksumsAgree := by
  intro a s
  have hinit := catalogue_init_lt a
  rw [treset_eq_tcanon, tproc_tcanon a hinit, tfinal, tcanon_tcanon a (gproc_lt hinit _ _ s)]

end Sys2Proof.Machine
end

section
/-! The laws of the engine interface (43_engine_interface.md section 3): RESET takes the canonical register back to INIT
(R127), CREATE_GENERIC sees its parameters through the mask only (R129), and the commands that read the engine write
nothing but the response slot, which no command reads (R130, R131). -/

namespace Sys2Proof.Machine

open Sys2Proof.Reference

/-! ### RESET and then CHKSUM -/

theorem exec_reset (s : State) : exec .reset s = engineCommand s s.ctx.reload 0#32 := rfl

theorem exec_chksum (s : State) : exec .chksum s = engineCommand s s.ctx s.ctx.final := rfl

/-- The load value is INIT in the form that the canonical register undoes: a table engine with `refin` mirrors it once
on the way in and once on the way out, which loses nothing as INIT fits the width. -/
theorem reload_canon {c : Ctx} (hw : c.width ≤ 32) (hinit : c.init.toNat < 2 ^ c.width) :
    c.reload.canon = c.init := by
  cases hkind : c.kind with
  | generic => simp [Ctx.canon, Ctx.reload, Ctx.resetVal, hkind]
  | table =>
    cases hrefin : c.refin with
    | false => simp [Ctx.canon, Ctx.reload, Ctx.resetVal, hkind, hrefin]
    | true => simpa [Ctx.canon, Ctx.reload, Ctx.resetVal, hkind, hrefin] using rev_rev_of_lt hw hinit

theorem reload_final {c : Ctx} (hok : c.ok) (hvalid : c.valid = true) :
    c.reload.final = gfinal c.width c.xorout c.refout c.init := by
  obtain ⟨hwidth, _, hinit, _⟩ := hok hvalid
  obtain ⟨_, h32⟩ := supportedWidths_bounds hwidth
  rw [Ctx.final, reload_canon h32 hinit]
  rfl

/-- Settles O54: both commands complete on a valid engine, and the checksum is taken from the canonical register, which
RESET makes INIT. -/
theorem resetGivesTheEmptyChecksum : Obligations.ResetGivesTheEmptyChecksum := by
  intro s hok hvalid
  refine ⟨_, _, ?_, engineCommand_of_valid (s := (s.setCtx s.ctx.reload).respond .ok 0#32) hvalid _ _, ?_⟩
  · rw [exec_reset, engineCommand_of_valid hvalid]
  · rw [respond_rspSlot, respond_ctx, setCtx_ctx, reload_final hok hvalid]

/-! ### The parameters of CREATE_GENERIC -/

theorem exec_createGeneric (w : BitVec 8) (ri ro : Bool) (poly init xorout : Word) (s : State) :
    exec (.createGeneric w ri ro poly init xorout) s = execCreateGeneric w ri ro poly init xorout s := rfl

theorem genericCtx_and_mask (w : Nat) (ri ro : Bool) (poly init xorout : Word) :
    genericCtx w ri ro (poly &&& mask w) (init &&& mask w) (xorout &&& mask w) =
      genericCtx w ri ro poly init xorout := by
  simp only [genericCtx, and_mask_and_mask]

/-- Settles O56: the width is checked apart from the other operands, and the context built takes those masked. -/
theorem parametersAreMaskedToTheWidth : Obligations.ParametersAreMaskedToTheWidth := by
  intro s w ri ro poly init xorout
  rw [exec_createGeneric, exec_createGeneric, execCreateGeneric, execCreateGeneric, genericCtx_and_mask]

/-! ### The commands that only read -/

/-- No command reads the response slot, and every command writes it. -/
theorem exec_of_rspSlot (i : Instr) (s : State) (r : Option Response) :
    exec i { s with rspSlot := r } = exec i s := by
  obtain ⟨c, q, h⟩ := exec_shape i s
  rw [h, exec_of_ctx_eq i (s' := { s with rspSlot := r }) rfl h]

theorem exec_refl (n : BitVec 6) (value : Word) (s : State) : exec (.refl n value) s = execRefl n value s := rfl

/-- REFL, CHKSUM and an illegal word write the response slot and nothing else, whichever status they respond with. -/
theorem readExec_frame {c : Read} {s t : State} (h : c.exec s = .next t) : ∃ r, t = { s with rspSlot := r } := by
  cases c with
  | refl n value =>
    rw [Read.exec, exec_refl, execRefl] at h
    split at h <;> cases h <;> exact ⟨_, rfl⟩
  | chksum =>
    rw [Read.exec, exec_chksum, engineCommand] at h
    split at h <;> cases h <;> exact ⟨_, rfl⟩
  | illegal => cases h; exact ⟨_, rfl⟩

theorem exec_runReads {cs : List Read} {s u : State} (h : runReads cs s u) (i : Instr) : exec i u = exec i s := by
  induction cs generalizing s with
  | nil => cases h; rfl
  | cons c cs ih =>
    obtain ⟨t, hc, hcs⟩ := h
    obtain ⟨r, rfl⟩ := readExec_frame hc
    rw [ih hcs, exec_of_rspSlot]

/-- Settles O57: CHKSUM is itself one of the reads, so after it and any list of them every command has the outcome it
had before them; the next CHKSUM, then, has the whole outcome of the first. -/
theorem chksumIsARepeatableRead : Obligations.ChksumIsARepeatableRead := by
  intro s t hst
  have hafter : ∀ {cs u}, runReads cs t u → ∀ i, exec i u = exec i s := fun {cs _} hcs =>
    exec_runReads (cs := .chksum :: cs) ⟨t, hst, hcs⟩
  have hchksum : ∀ cs u v, runReads cs t u → exec .chksum u = .next v → v.rspSlot = t.rspSlot := by
    intro cs u v hcs hv
    rw [hafter hcs, hst] at hv
    cases hv
    rfl
  exact ⟨fun v hv => hchksum [] t v rfl hv, hchksum, fun _ _ hcs => ⟨fun _ _ => hafter hcs _, fun _ => hafter hcs _⟩⟩

end Sys2Proof.Machine
end

section
/-! CREATE_GENERIC with an unsupported width (44_catalogue_and_construction.md R142, R143): the check of W is the only
one that raises `UnsupportedWidth`, and the step that takes the error still moves past the command's four words. -/

namespace Sys2Proof

/-! ### The command word of CREATE_GENERIC read back -/

theorem byteField_commandWord_createGeneric (w : BitVec 8) (ri ro : Bool) (poly init xorout : Word) :
    byteField (commandWord (.createGeneric w ri ro poly init xorout)) = w := by
  apply BitVec.eq_of_getLsbD_eq
  intro i hi
  rw [byteField, commandWord, BitVec.getLsbD_extractLsb', BitVec.getLsbD_append, BitVec.getLsbD_append]
  simp [hi]

theorem riField_commandWord_createGeneric (w : BitVec 8) (ri ro : Bool) (poly init xorout : Word) :
    riField (commandWord (.createGeneric w ri ro poly init xorout)) = ri := by
  simp only [riField, commandWord, BitVec.getLsbD_append]
  simp

theorem roField_commandWord_createGeneric (w : BitVec 8) (ri ro : Bool) (poly init xorout : Word) :
    roField (commandWord (.createGeneric w ri ro poly init xorout)) = ro := by
  simp only [roField, commandWord, BitVec.getLsbD_append]
  simp

theorem decode_encode_createGeneric (w : BitVec 8) (ri ro : Bool) (poly init xorout : Word) :
    decode (encode (.createGeneric w ri ro poly init xorout)) =
      .instr (.createGeneric w ri ro poly init xorout) [] := by
  obtain ⟨hop, hlen⟩ := Laws.CommandWord.createGeneric w ri ro poly init xorout
  have hdecode := decode_cons_of_matchOp hop (hlen rfl) []
  rw [List.append_nil] at hdecode
  rw [encode, hdecode, Instr.op, assembleInstr, byteField_commandWord_createGeneric,
    riField_commandWord_createGeneric, roField_commandWord_createGeneric]
  rfl

theorem commandLength_createGeneric (w : BitVec 8) (ri ro : Bool) (poly init xorout : Word) :
    commandLength (commandWord (.createGeneric w ri ro poly init xorout)) = 4 :=
  commandLength_of_matchOp (Laws.CommandWord.createGeneric w ri ro poly init xorout).1

end Sys2Proof

namespace Sys2Proof.Machine

/-- The step that executes a buffered command: the command's effect, then the bookkeeping. -/
theorem step_of_instr {s t : State} {i : Instr} {rest : List Word} (hrst : s.rstN = true) (hslot : s.rspSlot = none)
    (hdecode : decode s.rxBuf = .instr i rest) (hexec : exec i s = .next t) :
    step s = .next (t.retire (commandWords s.rxBuf)) := by
  have hcomplete : commandComplete s.rxBuf = true := by
    rw [← Bool.not_eq_false, ← decode_incomplete_iff, hdecode]
    exact nofun
  rw [step_executing hrst hslot hcomplete, runCommand, hdecode]
  simp only [hexec, mapNext]

/-! ### The check of the width -/

theorem mem_supportedWidths_iff (w : Nat) : w ∈ Config.supportedWidths ↔ w = 8 ∨ w = 16 ∨ w = 24 ∨ w = 32 := by
  simp only [Config.supportedWidths, List.mem_cons, List.not_mem_nil, or_false]

theorem exec_createGeneric_of_supported {w : BitVec 8} (hw : w.toNat ∈ Config.supportedWidths) (ri ro : Bool)
    (poly init xorout : Word) (s : State) :
    exec (.createGeneric w ri ro poly init xorout) s = complete s (genericCtx w.toNat ri ro poly init xorout) 0#32 := by
  rw [exec_createGeneric, execCreateGeneric, if_pos hw]

theorem exec_createGeneric_of_unsupported {w : BitVec 8} (hw : w.toNat ∉ Config.supportedWidths) (ri ro : Bool)
    (poly init xorout : Word) (s : State) :
    exec (.createGeneric w ri ro poly init xorout) s = .next (s.respond .unsupportedWidth 0#32) := by
  rw [exec_createGeneric, execCreateGeneric, if_neg hw, raise]

/-! ### Who raises `UnsupportedWidth` -/

/-- The answer `a` does not respond `UnsupportedWidth`. -/
def Answer.notUnsupportedWidth (a : Answer) : Prop :=
  ∀ (t : State) (d : Word), a = .next t → t.rspSlot ≠ some ⟨.unsupportedWidth, d⟩

theorem complete_notUnsupportedWidth (s : State) (c : Ctx) (d : Word) :
    Answer.notUnsupportedWidth (complete s c d) := by
  intro t e h hslot
  cases h
  cases hslot

theorem raise_notUnsupportedWidth (s : State) {e : Status} (he : e ≠ .unsupportedWidth) :
    Answer.notUnsupportedWidth (raise s e) := by
  intro t d h hslot
  cases h
  cases hslot
  exact he rfl

theorem engineCommand_notUnsupportedWidth (s : State) (c : Ctx) (d : Word) :
    Answer.notUnsupportedWidth (engineCommand s c d) := by
  rw [engineCommand]
  split
  · exact complete_notUnsupportedWidth s c d
  · exact raise_notUnsupportedWidth s nofun

theorem execRefl_notUnsupportedWidth (n : BitVec 6) (value : Word) (s : State) :
    Answer.notUnsupportedWidth (execRefl n value s) := by
  rw [execRefl]
  split
  · exact complete_notUnsupportedWidth s s.ctx _
  · exact raise_notUnsupportedWidth s nofun

/-- Only a CREATE_GENERIC whose width is not supported responds `UnsupportedWidth` (R142). -/
theorem createGeneric_of_unsupportedWidth {s t : State} {i : Instr} {d : Word} (h : exec i s = .next t)
    (hslot : t.rspSlot = some ⟨.unsupportedWidth, d⟩) :
    ∃ w ri ro poly init xorout, i = .createGeneric w ri ro poly init xorout ∧
      w.toNat ∉ Config.supportedWidths := by
  cases i with
  | createGeneric w ri ro poly init xorout =>
    refine ⟨w, ri, ro, poly, init, xorout, rfl, fun hw => ?_⟩
    rw [exec_createGeneric_of_supported hw] at h
    exact complete_notUnsupportedWidth _ _ _ t d h hslot
  | createStandard a => exact absurd hslot (complete_notUnsupportedWidth s _ _ t d h)
  | refl n value => exact absurd hslot (execRefl_notUnsupportedWidth n value s t d h)
  | reset | chksum | procb | proc | destroy | compute =>
    exact absurd hslot (engineCommand_notUnsupportedWidth s _ _ t d h)

/-- Settles O32: the check of W decides the whole outcome, no other check raises this code, and the command word gives
the length 4 whatever its W. -/
theorem unsupportedWidthChangesNothing : Obligations.UnsupportedWidthChangesNothing := by
  simp only [Obligations.UnsupportedWidthChangesNothing, ← mem_supportedWidths_iff]
  refine ⟨fun w ri ro poly init xorout s hw => exec_createGeneric_of_unsupported hw ri ro poly init xorout s,
    fun s t i d => createGeneric_of_unsupportedWidth, fun s w ri ro poly init xorout hrst hslot hw hbuf => ?_⟩
  have hwords : commandWords s.rxBuf = 4 := by
    rw [hbuf, encode, commandWords, commandLength_createGeneric]
  rw [step_of_instr hrst hslot (hbuf ▸ decode_encode_createGeneric w ri ro poly init xorout)
    (exec_createGeneric_of_unsupported hw ri ro poly init xorout s), hwords]
  rfl

end Sys2Proof.Machine
end

section
/-! The status of a command by the order of the checks (60_exceptions.md R154), and the error `DestroyedHandle` (R150).
The six engine commands are all the shared `engineCommand`, whose check of `valid` is the only one that raises it. -/

namespace Sys2Proof

/-- A decoded command takes all the words before the rest: the length read from its command word (R70). -/
theorem commandWords_of_decode {ws rest : List Word} {i : Instr} (h : decode ws = .instr i rest) :
    commandWords ws + rest.length = ws.length := by
  obtain ⟨cw, op, ops, rfl, hop, hlen, _⟩ := decode_instr_inv h
  rw [commandWords, commandLength_of_matchOp hop, ← hlen, List.length_cons, List.length_append]
  omega

end Sys2Proof

namespace Sys2Proof.Machine

open Sys2Proof.Reference

/-! ### The engine commands -/

theorem exec_destroy (s : State) : exec .destroy s = engineCommand s { s.ctx with valid := false } 0#32 := rfl

/-- The commands of R120 are `engineCommand` with an effect of their own. -/
theorem exec_of_needsEngine {i : Instr} (h : needsEngine i = true) (s : State) :
    ∃ c d, exec i s = engineCommand s c d := by
  cases i with
  | reset | chksum | procb | proc | destroy | compute => exact ⟨_, _, rfl⟩
  | createGeneric | createStandard | refl => cases h

theorem exec_of_invalid {i : Instr} (h : needsEngine i = true) {s : State} (hvalid : s.ctx.valid = false) :
    exec i s = .next (s.respond .destroyedHandle 0#32) := by
  obtain ⟨c, d, hexec⟩ := exec_of_needsEngine h s
  rw [hexec, engineCommand_of_invalid hvalid]

/-- DESTROY clears `valid` if it was set, and changes nothing otherwise. -/
theorem valid_of_destroy {s t : State} (h : exec .destroy s = .next t) : t.ctx.valid = false := by
  cases hvalid : s.ctx.valid with
  | true => rw [exec_destroy, engineCommand_of_valid hvalid] at h; cases h; rfl
  | false => rw [exec_destroy, engineCommand_of_invalid hvalid] at h; cases h; exact hvalid

/-! ### REFL -/

theorem exec_refl_of_le {n : BitVec 6} (hn : n.toNat ≤ 32) (value : Word) (s : State) :
    exec (.refl n value) s = complete s s.ctx (rev value n.toNat) := by
  rw [exec_refl, execRefl]
  exact if_pos hn

theorem exec_refl_of_gt {n : BitVec 6} (hn : 32 < n.toNat) (value : Word) (s : State) :
    exec (.refl n value) s = .next (s.respond .illegalCommand 0#32) := by
  rw [exec_refl, execRefl]
  exact if_neg (Nat.not_le.mpr hn)

/-! ### The status by the order of the checks -/

/-- The status that R154 gives a command of legal encoding; `exec_status` ties it to `exec`. -/
def statusOfChecks (s : State) : Instr → Status
  | .refl n _ => if 32 < n.toNat then .illegalCommand else .ok
  | .createGeneric w _ _ _ _ _ =>
    if w.toNat = 8 ∨ w.toNat = 16 ∨ w.toNat = 24 ∨ w.toNat = 32 then .ok else .unsupportedWidth
  | .createStandard _ => .ok
  | _ => if s.ctx.valid = true then .ok else .destroyedHandle

theorem statusOfChecks_of_needsEngine {i : Instr} (h : needsEngine i = true) (s : State) :
    statusOfChecks s i = if s.ctx.valid = true then .ok else .destroyedHandle := by
  cases i with
  | reset | chksum | procb | proc | destroy | compute => rfl
  | createGeneric | createStandard | refl => cases h

theorem exec_status_of_needsEngine {i : Instr} (h : needsEngine i = true) (s : State) :
    ∃ t d, exec i s = .next t ∧ t.rspSlot = some ⟨statusOfChecks s i, d⟩ := by
  obtain ⟨c, d, hexec⟩ := exec_of_needsEngine h s
  rw [statusOfChecks_of_needsEngine h, hexec]
  cases hvalid : s.ctx.valid with
  | true => exact ⟨_, d, engineCommand_of_valid hvalid c d, rfl⟩
  | false => exact ⟨_, 0#32, engineCommand_of_invalid hvalid c d, rfl⟩

theorem exec_createGeneric_status (w : BitVec 8) (ri ro : Bool) (poly init xorout : Word) (s : State) :
    ∃ t d, exec (.createGeneric w ri ro poly init xorout) s = .next t ∧
      t.rspSlot = some ⟨statusOfChecks s (.createGeneric w ri ro poly init xorout), d⟩ := by
  rw [statusOfChecks]
  split
  · next hw =>
    exact ⟨_, _, exec_createGeneric_of_supported ((mem_supportedWidths_iff _).mpr hw) ri ro poly init xorout s, rfl⟩
  · next hw =>
    exact ⟨_, _, exec_createGeneric_of_unsupported (mt (mem_supportedWidths_iff _).mp hw) ri ro poly init xorout s,
      rfl⟩

theorem exec_refl_status (n : BitVec 6) (value : Word) (s : State) :
    ∃ t d, exec (.refl n value) s = .next t ∧ t.rspSlot = some ⟨statusOfChecks s (.refl n value), d⟩ := by
  rw [statusOfChecks]
  split
  · next hn => exact ⟨_, _, exec_refl_of_gt hn value s, rfl⟩
  · next hn => exact ⟨_, _, exec_refl_of_le (Nat.not_lt.mp hn) value s, rfl⟩

/-- Every command answers with the status of the first check that fails. -/
theorem exec_status (i : Instr) (s : State) :
    ∃ t d, exec i s = .next t ∧ t.rspSlot = some ⟨statusOfChecks s i, d⟩ := by
  cases i with
  | createGeneric w ri ro poly init xorout => exact exec_createGeneric_status w ri ro poly init xorout s
  | createStandard a => exact ⟨_, _, rfl, rfl⟩
  | refl n value => exact exec_refl_status n value s
  | reset | chksum | procb | proc | destroy | compute => exact exec_status_of_needsEngine rfl s

theorem status_of_exec {i : Instr} {s t : State} {r : Response} (h : exec i s = .next t)
    (hslot : t.rspSlot = some r) : r.status = statusOfChecks s i := by
  obtain ⟨u, d, hexec, hu⟩ := exec_status i s
  rw [h] at hexec
  cases hexec
  rw [hslot] at hu
  cases hu
  rfl

/-- Only the check for a valid engine fails with `DestroyedHandle`. -/
theorem needsEngine_of_statusOfChecks {i : Instr} {s : State} (h : statusOfChecks s i = .destroyedHandle) :
    needsEngine i = true ∧ s.ctx.valid = false := by
  cases i with
  | createStandard a => cases h
  | createGeneric w ri ro poly init xorout => rw [statusOfChecks] at h; split at h <;> cases h
  | refl n value => rw [statusOfChecks] at h; split at h <;> cases h
  | reset | chksum | procb | proc | destroy | compute =>
    refine ⟨rfl, ?_⟩
    rw [statusOfChecks_of_needsEngine rfl] at h
    split at h
    · cases h
    · next hvalid => exact Bool.eq_false_iff.mpr hvalid

/-! ### The obligations -/

/-- Settles O26: an illegal word is refused by the step before any command executes, and each command makes the checks
that `statusOfChecks` names. -/
theorem statusFollowsTheOrderOfChecks : Obligations.StatusFollowsTheOrderOfChecks := by
  refine ⟨fun s cw hrst hslot hbuf hill => ⟨_, step_of_illegal hrst hslot hbuf hill, rfl⟩, fun i s => ?_⟩
  obtain ⟨t, d, hexec, hslot⟩ := exec_status i s
  refine ⟨t, d, hexec, hslot.trans ?_⟩
  cases i <;> rfl

/-- Settles O33: the six commands share one check, which answers before any effect, the step moves past the whole
buffered command whatever its outcome, and by the order of the checks no other check raises this code. -/
theorem destroyedHandleWithoutAValidEngine : Obligations.DestroyedHandleWithoutAValidEngine := by
  refine ⟨rfl, rfl, fun s t => valid_of_destroy, fun i s hneeds hvalid => exec_of_invalid hneeds hvalid,
    fun i s hneeds hvalid hrst hslot hdecode => ?_, fun i s t r hexec hslot hstatus => ?_⟩
  · have hwords : commandWords s.rxBuf = s.rxBuf.length := commandWords_of_decode hdecode
    rw [step_of_instr hrst hslot hdecode (exec_of_invalid hneeds hvalid), hwords]
    rfl
  · exact needsEngine_of_statusOfChecks ((status_of_exec hexec hslot).symm.trans hstatus)

end Sys2Proof.Machine
end

section
/-! Decoding and encoding are inverse (30_encoding.md sections 2 and 3). A command word is fixed by its row and its
fields: two words of one row agree on the bits of the row's mask (R71), and the fields are the bits outside it (R69). So
it is enough that the decoder reads each field back as it was written. -/

namespace Sys2Proof

/-! ### The fields of an encoded command word -/

theorem commandWord_statement (i : Instr) : Laws.CommandWord.Statement i := by
  cases i with
  | createGeneric w ri ro poly init xorout => exact Laws.CommandWord.createGeneric w ri ro poly init xorout
  | createStandard a => exact Laws.CommandWord.createStandard a
  | reset => exact Laws.CommandWord.reset
  | chksum => exact Laws.CommandWord.chksum
  | procb b => exact Laws.CommandWord.procb b
  | proc cnt data => exact Laws.CommandWord.proc cnt data
  | destroy => exact Laws.CommandWord.destroy
  | compute cnt data => exact Laws.CommandWord.compute cnt data
  | refl n value => exact Laws.CommandWord.refl n value

theorem matchOp_commandWord (i : Instr) : matchOp (commandWord i) = some i.op := (commandWord_statement i).1

theorem operandList_length {i : Instr} (h : i.wf = true) :
    (operandList i).length = operandWords i.op (commandWord i) := (commandWord_statement i).2 h

theorem ofCode_code (a : Alg) : Alg.ofCode a.code = a := by cases a <;> rfl

theorem code_ofCode (c : BitVec 2) : (Alg.ofCode c).code = c := by revert c; decide

theorem algField_commandWord_createStandard (a : Alg) : algField (commandWord (.createStandard a)) = a.code := by
  cases a <;> rfl

theorem byteField_commandWord_procb (b : Byte) : byteField (commandWord (.procb b)) = b := by
  apply BitVec.eq_of_getLsbD_eq
  intro i hi
  rw [byteField, commandWord, BitVec.getLsbD_extractLsb', BitVec.getLsbD_append, BitVec.getLsbD_append]
  simp [hi]

theorem nField_commandWord_refl (n : BitVec 6) (value : Word) : nField (commandWord (.refl n value)) = n := by
  apply BitVec.eq_of_getLsbD_eq
  intro i hi
  rw [nField, commandWord, BitVec.getLsbD_extractLsb', BitVec.getLsbD_append, BitVec.getLsbD_append]
  simp [hi]

/-- The decoder reads each field of a command back. -/
theorem assembleInstr_commandWord (i : Instr) : assembleInstr i.op (commandWord i) (operandList i) = i := by
  cases i with
  | createGeneric w ri ro poly init xorout =>
    rw [Instr.op, assembleInstr, byteField_commandWord_createGeneric, riField_commandWord_createGeneric,
      roField_commandWord_createGeneric]
    rfl
  | createStandard a => rw [Instr.op, assembleInstr, algField_commandWord_createStandard, ofCode_code]
  | procb b => rw [Instr.op, assembleInstr, byteField_commandWord_procb]
  | proc cnt data => rw [Instr.op, assembleInstr, commandWord, Laws.CommandWord.cntField_append, operandList]
  | compute cnt data => rw [Instr.op, assembleInstr, commandWord, Laws.CommandWord.cntField_append, operandList]
  | refl n value => rw [Instr.op, assembleInstr, nField_commandWord_refl]; rfl
  | reset | chksum | destroy => rfl

theorem decode_encode {i : Instr} (h : i.wf = true) (rest : List Word) :
    decode (encode i ++ rest) = .instr i rest := by
  rw [encode, List.cons_append, decode_cons_of_matchOp (matchOp_commandWord i) (operandList_length h),
    assembleInstr_commandWord]

/-! ### The bits of a row's mask -/

/-- The column `mask` of the opcode map (R72), tied to the map by `mask_eq_fixedBits`. -/
def Op.fixedBits : Op → Word
  | .createGeneric => 0xFFFC00FF#32
  | .createStandard => 0xFFFFFCFF#32
  | .procb => 0xFFFF00FF#32
  | .proc | .compute => 0x0000FFFF#32
  | .refl => 0xFFFFC0FF#32
  | .reset | .chksum | .destroy => 0xFFFFFFFF#32

theorem mask_eq_fixedBits {r : Row} (hr : r ∈ opcodeMap) : r.mask = r.op.fixedBits :=
  (by decide : ∀ r ∈ opcodeMap, r.mask = r.op.fixedBits) r hr

/-- Two words of one opcode are equal if they agree outside the fixed bits of its row. -/
theorem word_eq_of_matchOp {x y : Word} {op : Op} (hx : matchOp x = some op) (hy : matchOp y = some op)
    (hfree : ∀ i < 32, op.fixedBits.getLsbD i = false → x.getLsbD i = y.getLsbD i) : x = y := by
  obtain ⟨r, hr, rfl, hrx⟩ := matches_of_matchOp hx
  obtain ⟨q, hq, hqop, hqy⟩ := matches_of_matchOp hy
  have hqr : q = r := row_eq_of_opField hq hr (by rw [opField_pattern hq, opField_pattern hr, hqop])
  rw [hqr] at hqy
  have hfixed : x &&& r.mask = y &&& r.mask := hrx.trans hqy.symm
  apply BitVec.eq_of_getLsbD_eq
  intro i hi
  cases hbit : r.op.fixedBits.getLsbD i with
  | false => exact hfree i hi hbit
  | true =>
    have := congrArg (·.getLsbD i) hfixed
    simpa only [BitVec.getLsbD_and, mask_eq_fixedBits hr, hbit, Bool.and_true] using this

/-- Words with the same field have the same bits there. -/
theorem bit_eq_of_field_eq {x y : Word} {start len i : Nat}
    (h : x.extractLsb' start len = y.extractLsb' start len) (hi : start ≤ i ∧ i < start + len) :
    x.getLsbD i = y.getLsbD i := by
  have hbit := congrArg (·.getLsbD (i - start)) h
  have hlt : i - start < len := by omega
  simpa only [BitVec.getLsbD_extractLsb', hlt, decide_true, Bool.true_and, Nat.add_sub_of_le hi.1] using hbit

/-! ### Encoding what was decoded -/

theorem op_assembleInstr (op : Op) (cw : Word) (ops : List Word) : (assembleInstr op cw ops).op = op := by
  cases op <;> rfl

/-- The command word of a decoded command is the word it was read from: it has the same row and the same fields. -/
theorem commandWord_assembleInstr {cw : Word} {op : Op} (h : matchOp cw = some op) (ops : List Word) :
    commandWord (assembleInstr op cw ops) = cw := by
  refine word_eq_of_matchOp ((matchOp_commandWord _).trans (congrArg some (op_assembleInstr op cw ops))) h ?_
  cases op with
  | createGeneric =>
    intro i hi hfree
    have hfields : ∀ i < 32, Op.createGeneric.fixedBits.getLsbD i = false →
        (8 ≤ i ∧ i < 8 + 8) ∨ i = 16 ∨ i = 17 := by decide
    obtain hw | rfl | rfl := hfields i hi hfree
    · exact bit_eq_of_field_eq (byteField_commandWord_createGeneric _ _ _ _ _ _) hw
    · exact riField_commandWord_createGeneric _ _ _ _ _ _
    · exact roField_commandWord_createGeneric _ _ _ _ _ _
  | createStandard =>
    intro i hi hfree
    have halg : algField (commandWord (assembleInstr .createStandard cw ops)) = algField cw := by
      rw [assembleInstr, algField_commandWord_createStandard, code_ofCode]
    exact bit_eq_of_field_eq halg
      ((by decide : ∀ i < 32, Op.createStandard.fixedBits.getLsbD i = false → 8 ≤ i ∧ i < 8 + 2) i hi hfree)
  | procb =>
    intro i hi hfree
    exact bit_eq_of_field_eq (byteField_commandWord_procb _)
      ((by decide : ∀ i < 32, Op.procb.fixedBits.getLsbD i = false → 8 ≤ i ∧ i < 8 + 8) i hi hfree)
  | proc | compute =>
    intro i hi hfree
    exact bit_eq_of_field_eq (Laws.CommandWord.cntField_append (cntField cw) _)
      ((by decide : ∀ i < 32, Op.proc.fixedBits.getLsbD i = false → 16 ≤ i ∧ i < 16 + 16) i hi hfree)
  | refl =>
    intro i hi hfree
    exact bit_eq_of_field_eq (nField_commandWord_refl _ _)
      ((by decide : ∀ i < 32, Op.refl.fixedBits.getLsbD i = false → 8 ≤ i ∧ i < 8 + 6) i hi hfree)
  | reset | chksum | destroy =>
    intro i hi hfree
    exact absurd hfree
      ((by decide : ∀ i < 32, Op.reset.fixedBits.getLsbD i ≠ false) i hi)

theorem operandList_assembleInstr {cw : Word} {op : Op} {ops : List Word} (h : ops.length = operandWords op cw) :
    operandList (assembleInstr op cw ops) = ops := by
  cases op with
  | createGeneric => obtain ⟨a, b, c, rfl⟩ := List.length_eq_three.mp h; rfl
  | refl => obtain ⟨a, rfl⟩ := List.length_eq_one_iff.mp h; rfl
  | proc | compute => rfl
  | createStandard | reset | chksum | procb | destroy => exact (List.eq_nil_of_length_eq_zero h).symm

theorem assembleInstr_wf {cw : Word} {op : Op} {ops : List Word} (h : ops.length = operandWords op cw) :
    (assembleInstr op cw ops).wf = true := by
  cases op with
  | proc | compute => exact beq_iff_eq.mpr h
  | createGeneric | createStandard | reset | chksum | procb | destroy | refl => rfl

/-! ### The obligations -/

/-- Settles O1: the command word is legal under the command's own opcode with as many words after it as it has operand
words, and every field is read back. -/
theorem decodeOfEncodeGivesTheCommand : Obligations.DecodeOfEncodeGivesTheCommand :=
  fun _ rest h => decode_encode h rest

/-- Settles O2: the decoder read a legal command word and its operand words, and the fields it took fill all bits that
the row leaves free. -/
theorem encodeOfDecodeGivesTheWords : Obligations.EncodeOfDecodeGivesTheWords := by
  intro ws rest i h
  obtain ⟨cw, op, ops, rfl, hop, hlen, rfl⟩ := decode_instr_inv h
  refine ⟨assembleInstr_wf hlen, ?_⟩
  rw [encode, commandWord_assembleInstr hop, operandList_assembleInstr hlen, List.cons_append]

/-- Settles O5: the assembler and the decoder run on the closed terms of R81. -/
theorem workedEncodingsAssembleAndDecode : Obligations.WorkedEncodingsAssembleAndDecode :=
  ⟨by decide +kernel, by decide, by decide +kernel, by decide, by decide +kernel, by decide⟩

end Sys2Proof
end

section
/-! The assembler on a long byte sequence (30_encoding.md R78, R80): packing bytes into data words and unpacking them
again gives the bytes back, so each PROC carries its chunk, and the chunks are cut at 65535 bytes. -/

namespace Sys2Proof.Machine

/-! ### One PROC -/

theorem packBytes_length (s : List Byte) : (packBytes s).length = (s.length + 3) / 4 := by
  induction s using packBytes.induct with
  | case1 | case2 | case3 | case4 => simp [packBytes]
  | case5 a b c d rest ih => simp only [packBytes, List.length_cons, ih]; omega

/-- The bytes of a data word written high byte first come out low byte first (20_memory.md R46). -/
theorem wordBytes_append (a b c d : Byte) : wordBytes (d ++ c ++ b ++ a) = [a, b, c, d] := by
  have h0 : (d ++ c ++ b ++ a).extractLsb' 0 8 = a := by
    rw [BitVec.extractLsb'_append_eq_of_add_le (by decide), BitVec.extractLsb'_eq_self]
  have h1 : (d ++ c ++ b ++ a).extractLsb' 8 8 = b := by
    rw [BitVec.extractLsb'_append_eq_of_le (by decide), BitVec.extractLsb'_append_eq_of_add_le (by decide),
      BitVec.extractLsb'_eq_self]
  have h2 : (d ++ c ++ b ++ a).extractLsb' 16 8 = c := by
    rw [BitVec.extractLsb'_append_eq_of_le (by decide), BitVec.extractLsb'_append_eq_of_le (by decide),
      BitVec.extractLsb'_append_eq_of_add_le (by decide), BitVec.extractLsb'_eq_self]
  have h3 : (d ++ c ++ b ++ a).extractLsb' 24 8 = d := by
    rw [BitVec.extractLsb'_append_eq_of_le (by decide), BitVec.extractLsb'_append_eq_of_le (by decide),
      BitVec.extractLsb'_append_eq_of_le (by decide), BitVec.extractLsb'_eq_self]
  rw [wordBytes, h0, h1, h2, h3]

/-- Unpacking packed bytes gives them back, followed by the padding. -/
theorem flatMap_wordBytes_packBytes (s : List Byte) :
    ((packBytes s).flatMap wordBytes).take s.length = s := by
  induction s using packBytes.induct with
  | case1 => rfl
  | case2 | case3 | case4 => rw [packBytes, List.flatMap_singleton, wordBytes_append]; rfl
  | case5 a b c d rest ih => simp [packBytes, wordBytes_append, ih]

theorem unpack_procOf {s : List Byte} (h : s.length ≤ Config.maxCount) :
    unpack (BitVec.ofNat 16 s.length) (packBytes s) = s := by
  have hcount : (BitVec.ofNat 16 s.length).toNat = s.length := Nat.mod_eq_of_lt (Nat.lt_succ_of_le h)
  rw [unpack, hcount, flatMap_wordBytes_packBytes]

theorem procOf_wf {s : List Byte} (h : s.length ≤ Config.maxCount) : (procOf s).wf = true := by
  have hcount : (BitVec.ofNat 16 s.length).toNat = s.length := Nat.mod_eq_of_lt (Nat.lt_succ_of_le h)
  rw [procOf, Instr.wf, packBytes_length, dataWords, hcount, beq_self_eq_true]

/-! ### The chunks -/

/-- The bytes a PROC carries; no other command is asked for. -/
def procBytes : Instr → List Byte
  | .proc cnt data => unpack cnt data
  | _ => []

theorem procBytes_procOf {s : List Byte} (h : s.length ≤ Config.maxCount) : procBytes (procOf s) = s :=
  unpack_procOf h

/-- A sequence that fits one PROC becomes one. -/
theorem procChunks_of_le (fuel : Nat) {s : List Byte} (h : s.length ≤ Config.maxCount) :
    procChunks fuel s = [procOf s] := by
  cases fuel with
  | zero => rfl
  | succ fuel => rw [procChunks, if_pos h]

theorem procChunks_of_gt (fuel : Nat) {s : List Byte} (h : Config.maxCount < s.length) :
    procChunks (fuel + 1) s =
      procOf (s.take Config.maxCount) :: procChunks fuel (s.drop Config.maxCount) := by
  rw [procChunks, if_neg (Nat.not_le.mpr h)]

/-- What R80 asks of the commands `is` for the bytes `s`. -/
def carriesBytes (is : List Instr) (s : List Byte) : Prop :=
  is.length = max 1 ((s.length + 65534) / 65535) ∧
    (∀ i ∈ is, ∃ cnt data, i = .proc cnt data ∧ i.wf = true) ∧ is.flatMap procBytes = s

theorem carriesBytes_procOf {s : List Byte} (h : s.length ≤ Config.maxCount) : carriesBytes [procOf s] s := by
  refine ⟨?_, fun i hi => ?_, ?_⟩
  · rw [Config.maxCount] at h
    rw [List.length_singleton]; omega
  · rw [List.mem_singleton.mp hi]
    exact ⟨_, _, rfl, procOf_wf h⟩
  · rw [List.flatMap_singleton, procBytes_procOf h]

/-- Putting a full PROC in front of the commands for the rest. -/
theorem carriesBytes_cons {is : List Instr} {s : List Byte} (h : Config.maxCount < s.length)
    (hrest : carriesBytes is (s.drop Config.maxCount)) :
    carriesBytes (procOf (s.take Config.maxCount) :: is) s := by
  obtain ⟨hlen, hproc, hbytes⟩ := hrest
  have htake : (s.take Config.maxCount).length ≤ Config.maxCount := List.length_take_le _ _
  refine ⟨?_, List.forall_mem_cons.mpr ⟨⟨_, _, rfl, procOf_wf htake⟩, hproc⟩, ?_⟩
  · rw [Config.maxCount] at h
    rw [List.length_cons, hlen, List.length_drop, Config.maxCount]
    omega
  · rw [List.flatMap_cons, procBytes_procOf htake, hbytes, List.take_append_drop]

theorem carriesBytes_procChunks (fuel : Nat) (s : List Byte) (h : s.length ≤ fuel) :
    carriesBytes (procChunks fuel s) s := by
  induction fuel generalizing s with
  | zero => exact carriesBytes_procOf (h.trans (Nat.zero_le _))
  | succ fuel ih =>
    obtain hgt | hle := Nat.lt_or_ge Config.maxCount s.length
    · rw [procChunks_of_gt fuel hgt]
      refine carriesBytes_cons hgt (ih _ ?_)
      rw [List.length_drop, Config.maxCount]
      omega
    · rw [procChunks_of_le _ hle]
      exact carriesBytes_procOf hle

/-- Settles O8: by induction on the fuel, which the length bounds: the last PROC carries what fits, and each one before
it carries 65535 bytes. -/
theorem longProcSplitsIntoTheFewestCommands : Obligations.LongProcSplitsIntoTheFewestCommands := by
  intro s
  obtain ⟨hlen, hproc, hbytes⟩ := carriesBytes_procChunks s.length s (Nat.le_refl _)
  exact ⟨hlen, hproc, hbytes⟩

end Sys2Proof.Machine
end

section
/-! What every command does, said once (00_scope.md R13, 60_exceptions.md R147, R153): it completes, with a context and
a response of its own, or it raises an error and leaves the context. Then each engine command on a valid engine, by the
byte step, the load value and the checksum of 43_engine_interface.md section 1. -/

namespace Sys2Proof.Machine

open Sys2Proof.Reference

/-! ### Completing or raising -/

theorem exec_createStandard (a : Alg) (s : State) :
    exec (.createStandard a) s = complete s (standardCtx a) 0#32 := rfl

theorem exec_procb (b : Byte) (s : State) : exec (.procb b) s = engineCommand s (s.ctx.process [b]) 0#32 := rfl

theorem engineCommand_completes_or_raises (s : State) (c : Ctx) (d : Word) :
    engineCommand s c d = complete s c d ∨ engineCommand s c d = raise s .destroyedHandle := by
  rw [engineCommand]
  split
  · exact .inl rfl
  · exact .inr rfl

/-- Of the commands of R120 only CHKSUM and COMPUTE respond with data. -/
theorem exec_of_needsEngine_data {i : Instr} (h : needsEngine i = true) (s : State) :
    ∃ c d, exec i s = engineCommand s c d ∧ (givesData i = false → d = 0#32) := by
  cases i with
  | reset | procb | proc | destroy => exact ⟨_, _, rfl, fun _ => rfl⟩
  | chksum | compute => exact ⟨_, _, rfl, nofun⟩
  | createGeneric | createStandard | refl => cases h

/-- The two outcomes of a command: it completes, with data other than 0 only if it is one of the three of R147, or it
raises an error, which is not the reserved `OutOfMemory` (R151). -/
theorem exec_completes_or_raises (i : Instr) (s : State) :
    (∃ c d, exec i s = complete s c d ∧ (givesData i = false → d = 0#32)) ∨
      ∃ e, exec i s = raise s e ∧ e ≠ .ok ∧ e ≠ .outOfMemory := by
  cases hneeds : needsEngine i with
  | true =>
    obtain ⟨c, d, hexec, hdata⟩ := exec_of_needsEngine_data hneeds s
    obtain h | h := engineCommand_completes_or_raises s c d
    · exact .inl ⟨c, d, hexec.trans h, hdata⟩
    · exact .inr ⟨_, hexec.trans h, nofun, nofun⟩
  | false =>
    cases i with
    | createGeneric w ri ro poly init xorout =>
      by_cases hw : w.toNat ∈ Config.supportedWidths
      · exact .inl ⟨_, _, exec_createGeneric_of_supported hw ri ro poly init xorout s, fun _ => rfl⟩
      · exact .inr ⟨_, exec_createGeneric_of_unsupported hw ri ro poly init xorout s, nofun, nofun⟩
    | createStandard a => exact .inl ⟨_, _, exec_createStandard a s, fun _ => rfl⟩
    | refl n value =>
      obtain hn | hn := Nat.lt_or_ge 32 n.toNat
      · exact .inr ⟨_, exec_refl_of_gt hn value s, nofun, nofun⟩
      · exact .inl ⟨_, _, exec_refl_of_le hn value s, nofun⟩
    | reset | procb | proc | chksum | compute | destroy => cases hneeds

/-- The same said of the next state. -/
theorem exec_next_cases {i : Instr} {s t : State} (h : exec i s = .next t) :
    (∃ c d, t = (s.setCtx c).respond .ok d ∧ (givesData i = false → d = 0#32)) ∨
      ∃ e, t = s.respond e 0#32 ∧ e ≠ .ok ∧ e ≠ .outOfMemory := by
  obtain ⟨c, d, hexec, hdata⟩ | ⟨e, hexec, hok, hmem⟩ := exec_completes_or_raises i s
  · rw [h] at hexec
    exact .inl ⟨c, d, by cases hexec; rfl, hdata⟩
  · rw [h] at hexec
    exact .inr ⟨e, by cases hexec; rfl, hok, hmem⟩

/-- A command writes the context and the response slot only, and fills the slot. -/
theorem exec_frame {i : Instr} {s t : State} (h : exec i s = .next t) :
    ∃ r, t = { s with ctx := t.ctx, rspSlot := some r } := by
  obtain ⟨c, d, rfl, _⟩ | ⟨e, rfl, _⟩ := exec_next_cases h
  · exact ⟨_, rfl⟩
  · exact ⟨_, rfl⟩

theorem exec_response_ok {i : Instr} {s t : State} {r : Response} (h : exec i s = .next t)
    (hslot : t.rspSlot = some r) : r.ok := by
  obtain ⟨c, d, rfl, _⟩ | ⟨e, rfl, hok, hmem⟩ := exec_next_cases h
  · cases hslot
    exact ⟨fun hne => absurd rfl hne, nofun⟩
  · cases hslot
    exact ⟨fun _ => rfl, hmem⟩

/-- Settles O27: a command that raises has data 0, and one that completes has other data only if it is of the three. -/
theorem onlyThreeCommandsRespondWithData : Obligations.OnlyThreeCommandsRespondWithData := by
  intro i s t r h hslot hdata
  obtain ⟨c, d, rfl, hd⟩ | ⟨e, rfl, _⟩ := exec_next_cases h
  · cases hslot
    exact ⟨rfl, Bool.of_not_eq_false fun hgives => hdata (hd hgives)⟩
  · cases hslot
    exact absurd rfl hdata

/-- Settles O28: a command that completes responds OK, and `raise` writes the response slot only. -/
theorem errorLeavesTheContextUnchanged : Obligations.ErrorLeavesTheContextUnchanged := by
  intro i s t r h hslot hstatus
  obtain ⟨c, d, rfl, _⟩ | ⟨e, rfl, _⟩ := exec_next_cases h
  · cases hslot
    exact absurd rfl hstatus
  · cases hslot
    exact ⟨rfl, rfl⟩

/-! ### The frame of the context -/

/-- An engine command leaves its context or, if it raises, the one it found. -/
theorem engineCommand_ctx {s t : State} {c : Ctx} {d : Word} (h : engineCommand s c d = .next t) :
    t.ctx = c ∨ t.ctx = s.ctx := by
  obtain hexec | hexec := engineCommand_completes_or_raises s c d
  · rw [hexec] at h; cases h; exact .inl rfl
  · rw [hexec] at h; cases h; exact .inr rfl

/-- An engine command whose effect is on the register writes nothing else of the context. -/
theorem engineCommand_setReg_frame {s t : State} {r d : Word}
    (h : engineCommand s (s.ctx.setReg r) d = .next t) : t.ctx = { s.ctx with crcReg := t.ctx.crcReg } := by
  obtain hctx | hctx := engineCommand_ctx h
  · rw [hctx]; rfl
  · rw [hctx]

theorem exec_createGeneric_ctx {w : BitVec 8} {ri ro : Bool} {poly init xorout : Word} {s t : State}
    (h : exec (.createGeneric w ri ro poly init xorout) s = .next t) :
    t.ctx = s.ctx ∨ t.ctx = genericCtx w.toNat ri ro poly init xorout ∧ w.toNat ∈ Config.supportedWidths := by
  by_cases hw : w.toNat ∈ Config.supportedWidths
  · rw [exec_createGeneric_of_supported hw] at h; cases h; exact .inr ⟨rfl, hw⟩
  · rw [exec_createGeneric_of_unsupported hw] at h; cases h; exact .inl rfl

theorem exec_refl_ctx {n : BitVec 6} {value : Word} {s t : State} (h : exec (.refl n value) s = .next t) :
    t.ctx = s.ctx := by
  obtain hn | hn := Nat.lt_or_ge 32 n.toNat
  · rw [exec_refl_of_gt hn] at h; cases h; rfl
  · rw [exec_refl_of_le hn] at h; cases h; rfl

/-- Settles O29: the frame of the state is that of `exec_frame`; of the context, each engine command writes what its
effect writes, and processing bytes writes the register only. -/
theorem commandsWriteOnlyTheirFields : Obligations.CommandsWriteOnlyTheirFields := by
  intro i s t h
  refine ⟨?_, ?_⟩
  · obtain ⟨r, ht⟩ := exec_frame h
    rw [ht]
  cases i with
  | createGeneric w ri ro poly init xorout =>
    exact (exec_createGeneric_ctx h).imp_right fun ⟨hctx, _⟩ => by rw [hctx]; rfl
  | createStandard a => cases h; rfl
  | reset => exact engineCommand_setReg_frame h
  | chksum => exact (engineCommand_ctx h).elim id id
  | procb b => rw [exec_procb, process_eq] at h; exact engineCommand_setReg_frame h
  | proc cnt data => rw [exec_proc, process_eq] at h; exact engineCommand_setReg_frame h
  | compute cnt data => rw [exec_compute, process_eq] at h; exact engineCommand_setReg_frame h
  | destroy =>
    obtain hctx | hctx := engineCommand_ctx h
    · exact hctx.trans (by rw [hctx])
    · exact hctx.trans (by rw [hctx])
  | refl n value => exact exec_refl_ctx h

/-! ### The functions of the engine context by kind and form (43_engine_interface.md section 1) -/

theorem stepByte_setReg (c : Ctx) (r : Word) (b : Byte) : (c.setReg r).stepByte b = byteStep c r b := by
  cases hkind : c.kind <;> cases hrefin : c.refin <;> simp [Ctx.stepByte, byteStep, hkind, hrefin]

theorem resetVal_eq_loadValue (c : Ctx) : c.resetVal = loadValue c := by
  cases hkind : c.kind <;> cases hrefin : c.refin <;> simp [Ctx.resetVal, loadValue, hkind, hrefin]

theorem final_setReg (c : Ctx) (r : Word) : (c.setReg r).final = checksum c r := by
  cases hkind : c.kind <;> cases hrefin : c.refin <;> simp [Ctx.final, Ctx.canon, checksum, hkind, hrefin]

theorem process_setReg (c : Ctx) (r : Word) (s : List Byte) :
    (c.setReg r).process s = c.setReg (s.foldl (byteStep c) r) := by
  simp only [process_eq, setReg_setReg, setReg_crcReg, stepByte_setReg]

theorem setReg_crcReg_self (c : Ctx) : c.setReg c.crcReg = c := rfl

/-! ### Each command on a valid engine -/

/-- Settles O36: processing is the fold of the byte step. -/
theorem procStepsThroughItsBytes : Obligations.ProcStepsThroughItsBytes := by
  intro cnt data s hvalid
  rw [exec_proc, engineCommand_of_valid hvalid, ← setReg_crcReg_self s.ctx, process_setReg]
  rfl

/-- Settles O38: COMPUTE processes from the load value and responds the checksum of the register it reaches. -/
theorem computeRespondsTheChecksumOfItsBytes : Obligations.ComputeRespondsTheChecksumOfItsBytes := by
  intro cnt data s hvalid
  rw [exec_compute, engineCommand_of_valid hvalid, Ctx.reload, process_setReg, resetVal_eq_loadValue, final_setReg]
  rfl

/-- Settles O40: the check of the width, and the bit reflector as the sum of R83. -/
theorem reflRespondsTheReflectedValue : Obligations.ReflRespondsTheReflectedValue := by
  intro n v s
  refine ⟨fun hn => ⟨rev v n.toNat, ?_, rev_toNat v hn⟩, fun hn => exec_refl_of_gt hn v s⟩
  rw [exec_refl_of_le hn, complete, setCtx_self]
  rfl

/-- Settles O34: RESET takes the load value. -/
theorem resetReloadsTheRegister : Obligations.ResetReloadsTheRegister := by
  intro s hvalid
  rw [exec_reset, engineCommand_of_valid hvalid, Ctx.reload, resetVal_eq_loadValue]
  rfl

/-- Settles O35: PROCB processes the one-byte sequence. -/
theorem procbMakesOneByteStep : Obligations.ProcbMakesOneByteStep := by
  intro b s hvalid
  rw [exec_procb, engineCommand_of_valid hvalid, ← setReg_crcReg_self s.ctx, process_setReg]
  rfl

/-- Settles O37: CHKSUM completes with the context it found. -/
theorem chksumRespondsTheChecksum : Obligations.ChksumRespondsTheChecksum := by
  intro s hvalid
  rw [exec_chksum, engineCommand_of_valid hvalid, ← final_setReg]
  rfl

/-- Settles O39: DESTROY completes with `valid` cleared. -/
theorem destroyClearsValid : Obligations.DestroyClearsValid :=
  fun _ hvalid => engineCommand_of_valid hvalid _ _

/-! ### The construction commands -/

theorem standardCtx_crc16 : standardCtx .crc16 =
    ⟨true, .table, .crc16, 16, 0x8005#32, 0x0000#32, 0x0000#32, true, true, 0x0000#32⟩ := by decide

theorem standardCtx_ccitt : standardCtx .ccitt =
    ⟨true, .table, .ccitt, 16, 0x1021#32, 0xFFFF#32, 0x0000#32, false, false, 0xFFFF#32⟩ := by decide

theorem standardCtx_xmodem : standardCtx .xmodem =
    ⟨true, .table, .xmodem, 16, 0x8408#32, 0x0000#32, 0x0000#32, true, true, 0x0000#32⟩ := by decide

theorem standardCtx_crc32 : standardCtx .crc32 =
    ⟨true, .table, .crc32, 32, 0x04C11DB7#32, 0xFFFFFFFF#32, 0xFFFFFFFF#32, true, true, 0xFFFFFFFF#32⟩ := by decide

/-- Settles O30: CREATE_STANDARD completes from every state with the context of the name. -/
theorem createStandardBuildsTheCatalogueEntry : Obligations.CreateStandardBuildsTheCatalogueEntry := by
  intro s
  simp only [exec_createStandard, standardCtx_crc16, standardCtx_ccitt, standardCtx_xmodem, standardCtx_crc32]
  exact ⟨rfl, rfl, rfl, rfl⟩

/-- Settles O31: a supported width passes the check, and the operands are masked to it. -/
theorem createGenericBuildsTheMaskedEngine : Obligations.CreateGenericBuildsTheMaskedEngine := by
  intro w ri ro poly init xorout m s hw hm
  have hmem : w.toNat ∈ Config.supportedWidths := (mem_supportedWidths_iff _).mpr hw
  have hmask : m = mask w.toNat :=
    BitVec.eq_of_toNat_eq (hm.trans (mask_toNat (supportedWidths_bounds hmem).2).symm)
  rw [exec_createGeneric_of_supported hmem, hmask]
  rfl

end Sys2Proof.Machine
end

section
/-! The step of the block at its ports (20_memory.md section 2, 10_state.md section 3): what receiving and executing
leave unchanged, and from that what each step does to the command stream, the command pointer and the responses. -/

namespace Sys2Proof

/-! ### How far a buffered command has come -/

theorem commandWords_le_of_complete {ws : List Word} (h : commandComplete ws = true) : commandWords ws ≤ ws.length := by
  cases ws with
  | nil => cases h
  | cons cw rest => exact (commandComplete_cons cw rest).mp h

/-- A buffer that can still take words of its command is not complete. -/
theorem commandComplete_of_append {ws : List Word} {w : Word} {more : List Word}
    (h : (ws ++ w :: more).length ≤ commandWords (ws ++ w :: more)) : commandComplete ws = false := by
  cases ws with
  | nil => rfl
  | cons cw rest =>
    rw [List.cons_append, commandWords, List.length_cons, List.length_append, List.length_cons] at h
    rw [commandComplete_cons_false]
    omega

/-- One more word is still a word of the command that is not complete. -/
theorem length_le_commandWords_append {ws : List Word} (h : commandComplete ws = false) (w : Word) :
    (ws ++ [w]).length ≤ commandWords (ws ++ [w]) := by
  cases ws with
  | nil => exact commandLength_pos w
  | cons cw rest =>
    rw [commandComplete_cons_false] at h
    rw [List.cons_append, commandWords, List.length_cons, List.length_append]
    exact h

theorem length_encode {i : Instr} (h : i.wf = true) : (encode i).length = commandWords (encode i) := by
  rw [encode, commandWords, commandLength_of_matchOp (matchOp_commandWord i), List.length_cons, operandList_length h,
    Nat.add_comm]

end Sys2Proof

namespace Sys2Proof.Machine

/-! ### Receiving -/

theorem receiveWord_nil {s : State} (h : s.cmdIn = []) : s.receiveWord = s := by rw [State.receiveWord, h]

theorem receiveWord_cons {s : State} {w : Word} {ws : List Word} (h : s.cmdIn = w :: ws) :
    s.receiveWord = { s with rxBuf := s.rxBuf ++ [w], cmdIn := ws } := by rw [State.receiveWord, h]

/-- Receiving moves at most the boundary between the receive buffer and the offered words. -/
theorem receiveWord_frame (s : State) :
    s.receiveWord = { s with rxBuf := s.receiveWord.rxBuf, cmdIn := s.receiveWord.cmdIn } ∧
      s.receiveWord.rxBuf ++ s.receiveWord.cmdIn = s.rxBuf ++ s.cmdIn := by
  cases h : s.cmdIn with
  | nil => rw [receiveWord_nil h]; exact ⟨rfl, by rw [h]⟩
  | cons w ws => rw [receiveWord_cons h]; exact ⟨rfl, List.append_cons _ _ _ |>.symm⟩

@[simp] theorem receiveWord_ctx (s : State) : s.receiveWord.ctx = s.ctx := by rw [(receiveWord_frame s).1]
@[simp] theorem receiveWord_cp (s : State) : s.receiveWord.cp = s.cp := by rw [(receiveWord_frame s).1]
@[simp] theorem receiveWord_rspSlot (s : State) : s.receiveWord.rspSlot = s.rspSlot := by rw [(receiveWord_frame s).1]
@[simp] theorem receiveWord_rspOut (s : State) : s.receiveWord.rspOut = s.rspOut := by rw [(receiveWord_frame s).1]

/-! ### Executing -/

/-- The step that executes writes the context, fills the response slot with a legal response, moves the command pointer
past the command and empties the receive buffer. -/
theorem step_executing_frame {s t : State} (hrst : s.rstN = true) (hslot : s.rspSlot = none)
    (hcomplete : commandComplete s.rxBuf = true) (h : step s = .next t) :
    ∃ r : Response, r.ok ∧
      t = { s with ctx := t.ctx, rspSlot := some r, cp := s.cp + commandWords s.rxBuf, rxBuf := [] } := by
  rw [step_executing hrst hslot hcomplete] at h
  obtain ⟨u, hrun, ⟨_, _, _, rfl⟩ | ⟨i, _, _, hexec⟩⟩ := runCommand_cases hcomplete
  · rw [hrun] at h
    cases h
    exact ⟨⟨.illegalCommand, 0#32⟩, ⟨fun _ => rfl, nofun⟩, rfl⟩
  · rw [hrun] at h
    cases h
    obtain ⟨r, hu⟩ := exec_frame hexec
    refine ⟨r, exec_response_ok hexec (by rw [hu]), ?_⟩
    rw [hu]
    rfl

/-! ### The four events -/

/-- `step_cases` with what executing leaves unchanged. -/
theorem step_events {s t : State} (h : step s = .next t) :
    (s.rstN = false ∧ t = s.hardwareReset) ∨
    (s.rstN = true ∧ ∃ r, s.rspSlot = some r ∧
      t = if s.rspReady = true then { s with rspSlot := none, rspOut := s.rspOut ++ [r] } else s) ∨
    (s.rstN = true ∧ s.rspSlot = none ∧ commandComplete s.rxBuf = false ∧ t = s.receiveWord) ∨
    (s.rstN = true ∧ s.rspSlot = none ∧ commandComplete s.rxBuf = true ∧ ∃ r : Response, r.ok ∧
      t = { s with ctx := t.ctx, rspSlot := some r, cp := s.cp + commandWords s.rxBuf, rxBuf := [] }) := by
  obtain h1 | h2 | h3 | ⟨hrst, hslot, hcomplete, _⟩ := step_cases h
  · exact .inl h1
  · exact .inr (.inl h2)
  · exact .inr (.inr (.inl h3))
  · exact .inr (.inr (.inr ⟨hrst, hslot, hcomplete, step_executing_frame hrst hslot hcomplete h⟩))

theorem step_answers (s : State) : ∃ t, step s = .next t := by
  cases hrst : s.rstN with
  | false => exact ⟨_, step_inReset hrst⟩
  | true =>
    cases hslot : s.rspSlot with
    | some r => exact ⟨_, step_responding hrst hslot⟩
    | none =>
      cases hcomplete : commandComplete s.rxBuf with
      | false => exact ⟨_, step_receiving hrst hslot hcomplete⟩
      | true =>
        obtain ⟨t, hrun, _⟩ := runCommand_cases hcomplete
        exact ⟨_, (step_executing hrst hslot hcomplete).trans hrun⟩

/-- Settles O17: each of the four phases answers a next state. -/
theorem everyStepAnswersANextState : Obligations.EveryStepAnswersANextState := step_answers

/-! ### Command pointer, stream and responses -/

/-- Settles O11: of the four events only executing writes the command pointer, and hardware reset clears it. -/
theorem commandPointerAdvancesByTheLength : Obligations.CommandPointerAdvancesByTheLength := by
  refine ⟨rfl, fun s t h => ⟨fun hrst => ?_, fun hrst cw rest hbuf hslot hlen => ?_, fun hrst hwait => ?_⟩⟩
  · rw [step_inReset hrst] at h
    cases h
    rfl
  · have hcomplete : commandComplete s.rxBuf = true := by rwa [hbuf, commandComplete_cons]
    obtain ⟨r, _, ht⟩ := step_executing_frame hrst hslot hcomplete h
    rw [ht, hbuf]
    rfl
  · obtain ⟨hrst', _⟩ | ⟨_, r, _, rfl⟩ | ⟨_, _, _, rfl⟩ | ⟨_, hslot, hcomplete, _⟩ := step_events h
    · rw [hrst] at hrst'; cases hrst'
    · split <;> rfl
    · exact receiveWord_cp s
    · obtain hne | hnil | ⟨cw, rest, hbuf, hlt⟩ := hwait
      · exact absurd hslot hne
      · rw [hnil] at hcomplete; cases hcomplete
      · rw [hbuf, commandComplete_cons] at hcomplete; omega

/-- Settles O19: executing drops the whole receive buffer, which is exactly the command, and the other events keep the
words and their order. -/
theorem streamIsConsumedOnceInOrder : Obligations.StreamIsConsumedOnceInOrder := by
  intro s t ⟨_, hlen⟩ hrst h
  obtain ⟨hrst', _⟩ | ⟨_, r, _, rfl⟩ | ⟨_, _, _, rfl⟩ | ⟨_, _, hcomplete, r, _, ht⟩ := step_events h
  · rw [hrst] at hrst'; cases hrst'
  · split <;> simp
  · rw [receiveWord_cp, Nat.sub_self, List.drop_zero]
    exact ⟨Nat.le_refl _, (receiveWord_frame s).2⟩
  · have hwords : commandWords s.rxBuf = s.rxBuf.length := Nat.le_antisymm (commandWords_le_of_complete hcomplete) hlen
    rw [ht, hwords]
    exact ⟨Nat.le_add_right _ _, by simp⟩

/-- Settles O20: executing fills the empty slot, a transfer moves the response from the slot to the record, and the
other events leave both. -/
theorem oneResponsePerCommandInOrder : Obligations.OneResponsePerCommandInOrder := by
  intro s t hrst h
  obtain ⟨hrst', _⟩ | ⟨_, r, hslot, rfl⟩ | ⟨_, hslot, hcomplete, rfl⟩ | ⟨_, hslot, hcomplete, r, _, ht⟩ :=
    step_events h
  · rw [hrst] at hrst'; cases hrst'
  · refine ⟨[], ?_, by simp [hslot]⟩
    split <;> simp [State.responses, hslot]
  · exact ⟨[], by simp [State.responses], by simp [hcomplete]⟩
  · refine ⟨[r], ?_, by simp [hslot, hcomplete]⟩
    rw [ht]
    simp [State.responses, hslot]

/-! ### Single events -/

theorem cmdReady_iff (s : State) :
    s.cmdReady = true ↔ s.rstN = true ∧ s.rspSlot = none ∧ commandComplete s.rxBuf = false := by
  rw [State.cmdReady, State.phase]
  cases s.rstN <;> cases s.rspSlot <;> cases commandComplete s.rxBuf <;> simp

theorem step_receiving_nil {s : State} (hrst : s.rstN = true) (hslot : s.rspSlot = none)
    (hcomplete : commandComplete s.rxBuf = false) (hin : s.cmdIn = []) : step s = .next s := by
  rw [step_receiving hrst hslot hcomplete, receiveWord_nil hin]

theorem step_receiving_cons {s : State} (hrst : s.rstN = true) (hslot : s.rspSlot = none)
    (hcomplete : commandComplete s.rxBuf = false) {w : Word} {ws : List Word} (hin : s.cmdIn = w :: ws) :
    step s = .next { s with rxBuf := s.rxBuf ++ [w], cmdIn := ws } := by
  rw [step_receiving hrst hslot hcomplete, receiveWord_cons hin]

/-- The command in the buffer runs the same whatever the host offers. -/
theorem runCommand_offer {s t : State} (ws : List Word) (h : runCommand s = .next t) :
    runCommand (s.offer ws) = .next (t.offer ws) := by
  rw [runCommand] at h ⊢
  rw [offer_rxBuf]
  cases hdecode : decode s.rxBuf with
  | incomplete => rw [hdecode] at h; cases h; rfl
  | illegal why rest => rw [hdecode] at h; cases h; rfl
  | instr i rest =>
    obtain ⟨c, r, hexec⟩ := exec_shape i s
    rw [hdecode] at h
    simp only [hexec, mapNext] at h
    cases h
    simp only [exec_of_ctx_eq i (offer_ctx s ws) hexec, mapNext]
    rfl

/-- Settles O12: the block reads the offered words only when it receives, and then the first of them only. -/
theorem offeredWordEntersTheReceiveBuffer : Obligations.OfferedWordEntersTheReceiveBuffer := by
  refine ⟨fun s w ws hrst hslot hcomplete hin => ?_, fun s w hrst hslot hcomplete _ => ?_, fun s t ws hready h => ?_⟩
  · exact ⟨(cmdReady_iff s).mpr ⟨hrst, hslot, hcomplete⟩, step_receiving_cons hrst hslot hcomplete hin⟩
  · exact ⟨step_receiving_nil (s := s.withdraw) hrst hslot hcomplete rfl,
      step_receiving_cons (s := s.changeWord w) hrst hslot hcomplete rfl⟩
  · cases hrst : s.rstN with
    | false =>
      rw [step_inReset hrst] at h
      cases h
      exact step_inReset (s := s.offer ws) hrst
    | true =>
      cases hslot : s.rspSlot with
      | some r =>
        rw [step_responding hrst hslot] at h
        cases h
        rw [step_responding (s := s.offer ws) hrst hslot, offer_rspReady]
        split <;> rfl
      | none =>
        cases hcomplete : commandComplete s.rxBuf with
        | false => rw [(cmdReady_iff s).mpr ⟨hrst, hslot, hcomplete⟩] at hready; cases hready
        | true =>
          rw [step_executing hrst hslot hcomplete] at h
          rw [step_executing (s := s.offer ws) hrst hslot hcomplete, runCommand_offer ws h]

/-- Settles O9: the executing step moves past as many words as the decoder took, here all of them. -/
theorem stepExecutesTheBufferedCommand : Obligations.StepExecutesTheBufferedCommand := by
  intro s t i hrst hslot hdecode hexec
  have hwords : commandWords s.rxBuf = s.rxBuf.length := commandWords_of_decode hdecode
  rw [step_of_instr hrst hslot hdecode hexec, hwords]
  rfl

/-- Settles O13: the ports show the pending response, and the step hands it over or holds the state. -/
theorem responseIsHeldUntilTheHostAccepts : Obligations.ResponseIsHeldUntilTheHostAccepts := by
  intro s r hrst hslot
  have hphase : s.phase = .responding := phase_responding hrst hslot
  have hvalid : s.rspValid = true := by rw [State.rspValid, hphase]; rfl
  refine ⟨hvalid, ?_, ?_, ?_, fun hready => ?_, fun hready => ?_⟩
  · rw [State.rspStatus, if_pos hvalid, hslot]
    obtain ⟨status, data⟩ := r
    cases status <;> rfl
  · rw [State.rspData, if_pos hvalid, hslot]
    rfl
  · rw [State.cmdReady, hphase]
    rfl
  · rw [step_responding hrst hslot, if_pos hready]
  · rw [step_responding hrst hslot, hready, if_neg Bool.false_ne_true]

/-- Settles O14: while the command is incomplete the block receives, and with no word offered it holds its state. -/
theorem incompleteCommandWaits : Obligations.IncompleteCommandWaits := by
  intro s cw rest hrst hslot hbuf hlen hin
  have hcomplete : commandComplete s.rxBuf = false := by rwa [hbuf, commandComplete_cons_false]
  refine ⟨step_receiving_nil hrst hslot hcomplete hin, fun w ws => ?_, step_inReset (driveRstN_rstN s false)⟩
  have hsend : (s.send (w :: ws)).cmdIn = w :: ws := by rw [send_cmdIn, hin, List.nil_append]
  rw [step_receiving_cons (s := s.send (w :: ws)) hrst hslot hcomplete hsend, send_rxBuf, hbuf]
  rfl

/-- Settles O15: with reset asserted the phase is that of hardware reset whatever else the state holds. -/
theorem hardwareResetTakesTheResetState : Obligations.HardwareResetTakesTheResetState := by
  intro s hrst
  have hphase : s.phase = .inReset := phase_inReset hrst
  refine ⟨by rw [State.cmdReady, hphase]; rfl, by rw [State.rspValid, hphase]; rfl, ?_⟩
  rw [step_inReset hrst, State.hardwareReset, hrst]
  rfl

/-! ### The invariants of the channel and the responses -/

/-- Settles O22: executing needs an empty slot and empties the buffer, and a word is received only into a command that
is not complete. -/
theorem everyStepKeepsOneCommandInProgress : Obligations.EveryStepKeepsOneCommandInProgress := by
  intro s t hok h
  obtain ⟨hpending, hlen⟩ := hok
  obtain ⟨_, rfl⟩ | ⟨_, r, hslot, rfl⟩ | ⟨_, hslot, hcomplete, rfl⟩ | ⟨_, _, _, r, _, ht⟩ := step_events h
  · exact ⟨fun _ => rfl, Nat.le_refl _⟩
  · split
    · exact ⟨fun hne => absurd rfl hne, hlen⟩
    · exact ⟨hpending, hlen⟩
  · refine ⟨fun hne => absurd ((receiveWord_rspSlot s).trans hslot) hne, ?_⟩
    cases hin : s.cmdIn with
    | nil => rw [receiveWord_nil hin]; exact hlen
    | cons w ws => rw [receiveWord_cons hin]; exact length_le_commandWords_append hcomplete w
  · rw [ht]
    exact ⟨fun _ => rfl, Nat.le_refl _⟩

/-- Settles O23: the one fresh response of a step is legal, and the others were there before. -/
theorem everyStepKeepsResponsesLegal : Obligations.EveryStepKeepsResponsesLegal := by
  intro s t hok h q hq
  obtain ⟨_, rfl⟩ | ⟨_, r, hslot, rfl⟩ | ⟨_, hslot, _, rfl⟩ | ⟨_, hslot, _, r, hr, ht⟩ := step_events h
  · exact hok q (by simp [State.responses] at hq ⊢; exact .inl hq)
  · refine hok q ?_
    split at hq <;> simpa [State.responses, hslot] using hq
  · exact hok q (by simpa [State.responses] using hq)
  · rw [ht, State.responses, Option.toList_some, List.mem_append, List.mem_singleton] at hq
    obtain hq | rfl := hq
    · exact hok q (List.mem_append_left _ hq)
    · exact hr

/-- Settles O24: no engine is valid, the buffer is empty and no response was given. -/
theorem resetStateMeetsTheInvariants : Obligations.ResetStateMeetsTheInvariants :=
  ⟨nofun, ⟨fun _ => rfl, Nat.le_refl _⟩, nofun⟩

/-- Settles O25: the longest command has 16385 words. -/
theorem receiveBufferHoldsAtMostOneCommand : Obligations.ReceiveBufferHoldsAtMostOneCommand := by
  intro s ⟨_, hlen⟩
  cases hbuf : s.rxBuf with
  | nil => exact Nat.zero_le _
  | cons cw rest =>
    rw [hbuf] at hlen
    exact hlen.trans (commandLength_le cw)

end Sys2Proof.Machine
end

section
/-! Runs of several steps (70_reset_and_hazards.md section 4): a command offered on the channel is received word by
word, executes and responds, and every run comes to rest, since each step that changes the state uses up work that
only the host can give. -/

namespace Sys2Proof.Machine

/-! ### Composing runs -/

theorem run_add {M : Host.Core} {m : Nat} {s t : M.State} (h : M.run m s = .next t) (n : Nat) :
    M.run (m + n) s = M.run n t := by
  induction m generalizing s with
  | zero => cases h; rw [Nat.zero_add]
  | succ m ih =>
    rw [Host.Core.run] at h
    split at h
    · next u hu => rw [Nat.add_right_comm, run_succ M (m + n) s u hu, ih h]
    · cases h
    · cases h

theorem core_run_succ {n : Nat} {s t : State} (h : step s = .next t) :
    Sys2Proof.core.run (n + 1) s = Sys2Proof.core.run n t := run_succ Sys2Proof.core n s t h

/-! ### An offered command -/

/-- While the buffer holds no more than its command, the offered words of that command enter it one a step. -/
theorem run_receives (ws rest : List Word) {s : State} (hrst : s.rstN = true) (hslot : s.rspSlot = none)
    (hin : s.cmdIn = ws ++ rest) (hlen : (s.rxBuf ++ ws).length ≤ commandWords (s.rxBuf ++ ws)) :
    Sys2Proof.core.run ws.length s = .next { s with rxBuf := s.rxBuf ++ ws, cmdIn := rest } := by
  induction ws generalizing s with
  | nil => rw [List.append_nil, ← hin.trans (List.nil_append rest)]; rfl
  | cons w ws ih =>
    rw [List.length_cons, core_run_succ (step_receiving_cons hrst hslot (commandComplete_of_append hlen) hin)]
    have hassoc : s.rxBuf ++ w :: ws = s.rxBuf ++ [w] ++ ws := List.append_cons _ _ _
    rw [hassoc] at hlen ⊢
    exact ih (s := { s with rxBuf := s.rxBuf ++ [w], cmdIn := ws ++ rest }) hrst hslot rfl hlen

/-- Settles O10: the words are received, the buffer then decodes to the command, which executes as it would have at the
start, and the response transfers. -/
theorem offeredCommandRunsToItsResponse : Obligations.OfferedCommandRunsToItsResponse := by
  intro s t i ws hwf hrst hready hslot hbuf hin hexec
  obtain ⟨r, ht⟩ := exec_frame hexec
  have hrst' : t.rstN = true := by rw [ht]; exact hrst
  have hready' : t.rspReady = true := by rw [ht]; exact hready
  have hout : t.rspOut = s.rspOut := by rw [ht]
  have hslot' : t.rspSlot = some r := by rw [ht]
  have hreceive := run_receives (encode i) ws hrst hslot hin
    (by rw [hbuf, List.nil_append]; exact (length_encode hwf).le)
  rw [hbuf, List.nil_append] at hreceive
  have hdecode : decode (encode i) = .instr i [] := by simpa using decode_encode hwf []
  have hexecute : step { s with rxBuf := encode i, cmdIn := ws } =
      .next { t with cp := s.cp + (encode i).length, rxBuf := [], cmdIn := ws } := by
    rw [stepExecutesTheBufferedCommand { s with rxBuf := encode i, cmdIn := ws } _ i hrst hslot hdecode
      (exec_of_ctx_eq i (s := s) rfl hexec), ht]
  have hrespond := step_responding (s := { t with cp := s.cp + (encode i).length, rxBuf := [], cmdIn := ws })
    hrst' hslot'
  rw [run_add hreceive, core_run_succ hexecute, core_run_succ hrespond, if_pos hready', hslot', ← hout]
  rfl

/-! ### Coming to rest -/

/-- Steps the block can still make without the host: three for each offered word (its transfer, and the execution and
the response of a command it completes), two for a whole command in the buffer and one for a pending response. -/
def State.work (s : State) : Nat :=
  3 * s.cmdIn.length + (if s.rspSlot = none then if commandComplete s.rxBuf = true then 2 else 0 else 1)

theorem work_le (s : State) : s.work ≤ 4 * s.cmdIn.length + 4 := by
  rw [State.work]
  split
  · split <;> omega
  · omega

/-- Where a run comes to rest, if the host's `rsp_ready` is `ready`. -/
def State.atRest (s : State) (ready : Bool) : Prop :=
  s.ended = true ∨ s.waitsForWords = true ∨ ready = false ∧ s.waitsForAccept = true

/-- A step with reset released holds the state, at its end or at a wait for the host, or it uses up work. -/
theorem step_rests_or_works {s t : State} (hok : s.channelOk) (hrst : s.rstN = true) (h : step s = .next t) :
    (t = s ∧ s.atRest s.rspReady) ∨ (t.work < s.work ∧ t.rstN = true ∧ t.rspReady = s.rspReady) := by
  obtain ⟨hrst', _⟩ | ⟨_, r, hslot, rfl⟩ | ⟨_, hslot, hcomplete, rfl⟩ | ⟨_, hslot, hcomplete, r, _, ht⟩ :=
    step_events h
  · rw [hrst] at hrst'; cases hrst'
  · split
    · have hempty : s.rxBuf = [] := hok.1 (by rw [hslot]; nofun)
      exact .inr ⟨by simp [State.work, hslot, hempty, commandComplete], hrst, rfl⟩
    · next hready =>
      rw [Bool.not_eq_true] at hready
      refine .inl ⟨rfl, .inr (.inr ⟨hready, ?_⟩)⟩
      rw [State.waitsForAccept, phase_responding hrst hslot, hready]
      rfl
  · cases hin : s.cmdIn with
    | nil =>
      refine .inl ⟨receiveWord_nil hin, ?_⟩
      cases hbuf : s.rxBuf with
      | nil => exact .inl (by simp [State.ended, hin, hbuf, hslot])
      | cons w ws =>
        exact .inr (.inl (by simp [State.waitsForWords, phase_receiving hrst hslot hcomplete, hin, hbuf]))
    | cons w ws =>
      rw [receiveWord_cons hin]
      refine .inr ⟨?_, hrst, rfl⟩
      simp only [State.work, hin, hslot, hcomplete, List.length_cons, if_true, Bool.false_eq_true, if_false]
      split <;> omega
  · rw [ht]
    exact .inr ⟨by simp [State.work, hslot, hcomplete], hrst, rfl⟩

/-- A run comes to rest before its work is used up. -/
theorem run_rests {s : State} (hok : s.channelOk) (hrst : s.rstN = true) :
    ∃ n t, n ≤ s.work ∧ Sys2Proof.core.run n s = .next t ∧ step t = .next t ∧ t.atRest s.rspReady := by
  obtain ⟨t, hstep⟩ := step_answers s
  obtain ⟨rfl, hrest⟩ | ⟨hless, hrst', hready⟩ := step_rests_or_works hok hrst hstep
  · exact ⟨0, t, Nat.zero_le _, rfl, hstep, hrest⟩
  · obtain ⟨n, u, hn, hrun, hu, hrest⟩ := run_rests (everyStepKeepsOneCommandInProgress s t hok hstep) hrst'
    exact ⟨n + 1, u, hn.trans_lt hless, (core_run_succ hstep).trans hrun, hu, hready ▸ hrest⟩
termination_by s.work

/-- Settles O18: the work of the first state bounds the steps until the run rests. -/
theorem everyRunEndsOrWaitsForTheHost : Obligations.EveryRunEndsOrWaitsForTheHost := by
  intro s hok hrst
  obtain ⟨n, t, hn, hrun, hstep, hrest⟩ := run_rests hok hrst
  exact ⟨n, t, hn.trans (work_le s), hrun, hstep, hrest⟩

end Sys2Proof.Machine
end

section
/-! The laws of the bit reflector (40_bit_reflector.md R85) and of the lookup tables (42_crc_table_accelerated.md R100
to R102, R107, R109): each table is the byte step from a zero register, and mirroring carries one over to the other. -/

namespace Sys2Proof.Machine

open Sys2Proof.Reference

/-! ### The bit reflector -/

theorem rev_one (v : Word) : rev v 1 = v &&& 1#32 := by
  have hmask : (1#32) = mask 1 := rfl
  rw [hmask]
  apply BitVec.eq_of_getLsbD_eq
  intro i _
  rw [rev_getLsbD v (by decide), and_mask_getLsbD]
  by_cases hi : i < 1
  · have h0 : i = 0 := by omega
    rw [h0, Bool.and_comm]
  · rw [decide_eq_false hi, Bool.false_and, Bool.and_false]

/-- Settles O42: reversing twice keeps the low bits, and the bits of an exclusive or are reversed one by one. -/
theorem revIsALinearInvolution : Obligations.RevIsALinearInvolution :=
  fun v u _ hn => ⟨rev_rev v hn, rfl, rev_one v, rev_xor v u hn⟩

/-! ### The tables -/

/-- The fold of an index into a zero register is what `w - 8` iterations make of the index, as they only shift it. -/
theorem iterate_shiftXor_index {w : Nat} (hw : w ≤ 32) (h8 : 8 ≤ w) (poly : Word) (i : Byte) :
    iterate (shiftXor w poly) (w - 8) (i.setWidth 32) = fold w 0#32 i := by
  have hlt : (i.setWidth 32).toNat < 2 ^ (w - (w - 8)) := by
    rw [Nat.sub_sub_self h8, BitVec.toNat_setWidth_of_le (by decide)]
    exact i.isLt
  rw [iterate_shiftXor_of_lt poly hw (w - 8) (Nat.sub_le _ _) _ hlt, fold, BitVec.zero_xor]

/-- Settles O45: of the `w` iterations from the index the first `w - 8` only shift it to the top. -/
theorem tableEntryIsWidthIterations : Obligations.TableEntryIsWidthIterations := by
  intro a i
  have h8 := catalogue_width_ge a
  refine ⟨rfl, ?_⟩
  calc tn a i
    _ = iterate (shiftXor (catalogue a).width (catalogue a).poly) 8 (fold (catalogue a).width 0#32 i) := rfl
    _ = iterate (shiftXor (catalogue a).width (catalogue a).poly) ((catalogue a).width - 8 + 8) (i.setWidth 32) := by
        rw [iterate_add, iterate_shiftXor_index (catalogue_width_le a) h8]
    _ = _ := by rw [Nat.sub_add_cancel h8]

/-- Mirroring carries the recurrence of the normal table over to that of the reflected one. -/
theorem tr_eq_rev_tn (a : Alg) (i : Byte) : tr a i = rev (tn a (revByte i)) (catalogue a).width := by
  have hw := catalogue_width_le a
  have h8 := catalogue_width_ge a
  have hzero : rev 0#32 (catalogue a).width = 0#32 := by cases a <;> rfl
  rw [tn, gstep, reflectIn, if_neg Bool.false_ne_true, rev_iterate_shiftXor hw (Nat.le_trans (by decide) h8),
    rev_fold hw h8, hzero, BitVec.zero_xor, tr]

theorem rom_lt (a : Alg) (i : Byte) : (rom a i).toNat < 2 ^ (catalogue a).width := by
  cases hr : (catalogue a).refin with
  | false => rw [rom_of_not_refin hr]; exact tn_lt a i
  | true => rw [rom_of_refin hr, tr_eq_rev_tn]; exact rev_lt _ (catalogue_width_le a)

/-- Settles O46: the ROM holds the reflected table for the entries with `refin`, which are all but ccitt. -/
theorem reflectedTableMirrorsTheNormalTable : Obligations.ReflectedTableMirrorsTheNormalTable := by
  intro a i
  refine ⟨tr_eq_rev_tn a i, ?_, rom_lt a i⟩
  cases a <;> rfl

/-- Settles O47: one lemma for each form of the table step. -/
theorem tableStepAgreesWithTheBitSerialStep : Obligations.TableStepAgreesWithTheBitSerialStep :=
  fun _ reg b h => ⟨fun hr => tstepN_eq_gstep hr h b, fun hr => tstepR_rev hr reg b⟩

/-! ### A table engine's context -/

theorem params_eq_catalogue {c : Ctx} (hok : c.ok) (hvalid : c.valid = true) (hkind : c.kind = .table) :
    c.params = catalogue c.alg := by
  obtain ⟨_, _, _, _, _, htable⟩ := hok hvalid
  exact htable hkind

/-- The form of a table engine is that of its catalogue entry. -/
theorem canon_eq_tcanon {c : Ctx} (hkind : c.kind = .table) (hparams : c.params = catalogue c.alg) :
    c.canon = tcanon c.alg c.crcReg := by
  have hrefin : c.refin = (catalogue c.alg).refin := congrArg Params.refin hparams
  have hwidth : c.width = (catalogue c.alg).width := congrArg Params.width hparams
  rw [tcanon, ← hrefin, ← hwidth, Ctx.canon, hkind]
  cases c.refin <;> rfl

theorem final_eq_tfinal {c : Ctx} (hkind : c.kind = .table) (hparams : c.params = catalogue c.alg) :
    c.final = tfinal c.alg c.crcReg := by
  rw [tfinal, ← hparams, ← canon_eq_tcanon hkind hparams]
  rfl

/-- Every catalogue entry reflects its output exactly if it reflects its input, so the checksum undoes the form of the
register. -/
theorem tfinal_eq_xor_and_mask (a : Alg) {reg : Word} (h : reg.toNat < 2 ^ (catalogue a).width) :
    tfinal a reg = (reg ^^^ (catalogue a).xorout) &&& mask (catalogue a).width := by
  have hforms : (catalogue a).refout = (catalogue a).refin := by cases a <;> rfl
  have hundo : (if (catalogue a).refin then rev (tcanon a reg) (catalogue a).width else tcanon a reg) = reg :=
    tcanon_tcanon a h
  rw [tfinal, gfinal, hforms, hundo]

/-- Settles O49: the checksum is taken from the canonical register, which is the internal one in the form that the
reflected output undoes. -/
theorem tableChecksumIsTheInternalRegister : Obligations.TableChecksumIsTheInternalRegister := by
  intro c hok hvalid hkind
  have hparams := params_eq_catalogue hok hvalid hkind
  obtain ⟨_, _, _, _, hreg, _⟩ := hok hvalid
  have hwidth : c.width = (catalogue c.alg).width := congrArg Params.width hparams
  have hxorout : c.xorout = (catalogue c.alg).xorout := congrArg Params.xorout hparams
  have hfinal := final_eq_tfinal hkind hparams
  refine ⟨rfl, hfinal, ?_⟩
  rw [hfinal, tfinal_eq_xor_and_mask c.alg (hwidth ▸ hreg), hxorout, hwidth]

end Sys2Proof.Machine
end

section
/-! The context invariant (10_state.md R34): while the context is valid its values fit the width, so the register must
be shown to fit after a reload and after a byte step; every command then leaves a context that meets it. -/

namespace Sys2Proof.Machine

/-! ### The register -/

theorem setReg_ok {c : Ctx} {r : Word} (hok : c.ok) (hr : c.valid = true → r.toNat < 2 ^ c.width) :
    (c.setReg r).ok := by
  intro hvalid
  obtain ⟨hwidth, hpoly, hinit, hxorout, _, htable⟩ := hok hvalid
  exact ⟨hwidth, hpoly, hinit, hxorout, hr hvalid, htable⟩

theorem resetVal_lt {c : Ctx} (hw : c.width ≤ 32) (hinit : c.init.toNat < 2 ^ c.width) :
    c.resetVal.toNat < 2 ^ c.width := by
  rw [Ctx.resetVal]
  split
  · exact rev_lt _ hw
  · exact hinit
  · exact hinit

/-- A shift to the right and a table entry both fit the width. -/
theorem tstepR_lt (a : Alg) {reg : Word} (h : reg.toNat < 2 ^ (catalogue a).width) (b : Byte) :
    (tstepR a reg b).toNat < 2 ^ (catalogue a).width := by
  have hshift : (reg >>> 8).toNat < 2 ^ (catalogue a).width := by
    rw [BitVec.toNat_ushiftRight]
    exact (Nat.shiftRight_le _ _).trans_lt h
  rw [tstepR, BitVec.toNat_xor]
  exact Nat.xor_lt_two_pow hshift (rom_lt a _)

theorem stepByte_lt {c : Ctx} (hok : c.ok) (hvalid : c.valid = true) (b : Byte) :
    (c.stepByte b).toNat < 2 ^ c.width := by
  obtain ⟨_, _, _, _, hreg, htable⟩ := hok hvalid
  have hwidth : c.kind = .table → c.width = (catalogue c.alg).width := fun hkind =>
    congrArg Params.width (htable hkind)
  rw [Ctx.stepByte]
  split
  · next hkind _ => rw [hwidth hkind] at hreg ⊢; exact tstepR_lt c.alg hreg b
  · next hkind _ => rw [hwidth hkind]; exact tstepN_lt c.alg _ b
  · exact gstep_lt _ _ _ _ b

theorem reload_ok {c : Ctx} (hok : c.ok) : c.reload.ok :=
  setReg_ok hok fun hvalid =>
    let ⟨hwidth, _, hinit, _⟩ := hok hvalid
    resetVal_lt (supportedWidths_bounds hwidth).2 hinit

theorem process_ok {c : Ctx} (hok : c.ok) (s : List Byte) : (c.process s).ok := by
  induction s generalizing c with
  | nil => exact hok
  | cons b s ih => exact ih (setReg_ok hok fun hvalid => stepByte_lt hok hvalid b)

/-! ### The contexts that the construction commands build -/

theorem genericCtx_ok {w : Nat} (hw : w ∈ Config.supportedWidths) (ri ro : Bool) (poly init xorout : Word) :
    (genericCtx w ri ro poly init xorout).ok :=
  fun _ => ⟨hw, and_mask_lt _ w, and_mask_lt _ w, and_mask_lt _ w, and_mask_lt _ w, nofun⟩

theorem catalogue_width_supported (a : Alg) : (catalogue a).width ∈ Config.supportedWidths := by cases a <;> decide

theorem treset_lt (a : Alg) : (treset a).toNat < 2 ^ (catalogue a).width := by cases a <;> decide

theorem standardCtx_ok (a : Alg) : (standardCtx a).ok :=
  fun _ => ⟨catalogue_width_supported a, catalogue_poly_lt a, catalogue_init_lt a, catalogue_xorout_lt a, treset_lt a,
    fun _ => rfl⟩

/-! ### Every command and every step -/

theorem engineCommand_ok {s t : State} {c : Ctx} {d : Word} (hok : s.ctx.ok) (hc : c.ok)
    (h : engineCommand s c d = .next t) : t.ctx.ok := by
  obtain hctx | hctx := engineCommand_ctx h
  · rw [hctx]; exact hc
  · rw [hctx]; exact hok

theorem exec_ok {i : Instr} {s t : State} (hok : s.ctx.ok) (h : exec i s = .next t) : t.ctx.ok := by
  cases i with
  | createGeneric w ri ro poly init xorout =>
    obtain hctx | ⟨hctx, hw⟩ := exec_createGeneric_ctx h
    · rw [hctx]; exact hok
    · rw [hctx]; exact genericCtx_ok hw ri ro poly init xorout
  | createStandard a => cases h; exact standardCtx_ok a
  | reset => exact engineCommand_ok hok (reload_ok hok) h
  | chksum => exact engineCommand_ok hok hok h
  | procb b => exact engineCommand_ok hok (process_ok hok [b]) h
  | proc cnt data => exact engineCommand_ok hok (process_ok hok _) h
  | compute cnt data => exact engineCommand_ok hok (process_ok (reload_ok hok) _) h
  | destroy => exact engineCommand_ok (c := { s.ctx with valid := false }) hok nofun h
  | refl n value => rw [exec_refl_ctx h]; exact hok

/-- Settles O21: only executing a command and hardware reset write the context, and reset leaves no valid engine. -/
theorem everyStepKeepsTheContextInvariant : Obligations.EveryStepKeepsTheContextInvariant := by
  intro s t hok h
  obtain ⟨_, rfl⟩ | ⟨_, r, _, rfl⟩ | ⟨_, _, _, rfl⟩ | ⟨_, _, _, u, rfl, hcommand⟩ := step_cases h
  · exact nofun
  · split <;> exact hok
  · rw [receiveWord_ctx]; exact hok
  · obtain ⟨_, _, _, rfl⟩ | ⟨i, _, _, hexec⟩ := hcommand
    · exact hok
    · exact exec_ok (t := u) hok hexec

end Sys2Proof.Machine
end

section
/-! Contexts that no command can tell apart (10_state.md R37, 42_crc_table_accelerated.md R111). The relation between
two valid engines is equal parameters and equal canonical registers: on the canonical register every byte step is the
bit-serial one, and a load value and a checksum are functions of the two. -/

namespace Sys2Proof.Machine

/-! ### The canonical register -/

theorem setReg_canon_of_table {c : Ctx} (hkind : c.kind = .table) (hparams : c.params = catalogue c.alg) (r : Word) :
    (c.setReg r).canon = tcanon c.alg r := canon_eq_tcanon (c := c.setReg r) hkind hparams

theorem stepByte_eq_tstep {c : Ctx} (hkind : c.kind = .table) (hparams : c.params = catalogue c.alg) (b : Byte) :
    c.stepByte b = tstep c.alg c.crcReg b := by
  have hrefin : c.refin = (catalogue c.alg).refin := congrArg Params.refin hparams
  rw [tstep, ← hrefin, Ctx.stepByte, hkind]
  cases c.refin <;> rfl

/-- On the canonical register every engine makes the bit-serial byte step of its parameters. -/
theorem stepByte_canon {c : Ctx} (hok : c.ok) (hvalid : c.valid = true) (b : Byte) :
    (c.setReg (c.stepByte b)).canon = gstep c.width c.poly c.refin c.canon b := by
  obtain ⟨_, _, _, _, hreg, htable⟩ := hok hvalid
  cases hkind : c.kind with
  | generic => simp [Ctx.canon, Ctx.stepByte, hkind]
  | table =>
    have hparams := htable hkind
    have hwidth : c.width = (catalogue c.alg).width := congrArg Params.width hparams
    have hpoly : c.poly = (catalogue c.alg).poly := congrArg Params.poly hparams
    have hrefin : c.refin = (catalogue c.alg).refin := congrArg Params.refin hparams
    rw [hwidth] at hreg
    have hcanon : (tcanon c.alg c.crcReg).toNat < 2 ^ (catalogue c.alg).width := by
      rw [tcanon]
      split
      · exact rev_lt _ (catalogue_width_le c.alg)
      · exact hreg
    calc (c.setReg (c.stepByte b)).canon
      _ = tcanon c.alg (tstep c.alg (tcanon c.alg (tcanon c.alg c.crcReg)) b) := by
          rw [setReg_canon_of_table hkind hparams, stepByte_eq_tstep hkind hparams, tcanon_tcanon c.alg hreg]
      _ = gstep (catalogue c.alg).width (catalogue c.alg).poly (catalogue c.alg).refin (tcanon c.alg c.crcReg) b := by
          rw [tstep_tcanon c.alg hcanon, tcanon_tcanon c.alg (gstep_lt _ _ _ _ b)]
      _ = gstep c.width c.poly c.refin c.canon b := by rw [canon_eq_tcanon hkind hparams, hwidth, hpoly, hrefin]

/-! ### Engines that agree -/

/-- Two valid engines that meet the invariant and have equal parameters and equal canonical registers: the last case of
`Ctx.indistinguishable`. -/
structure Ctx.agrees (c d : Ctx) : Prop where
  ok_left : c.ok
  ok_right : d.ok
  valid_left : c.valid = true
  valid_right : d.valid = true
  params : c.params = d.params
  canon : c.canon = d.canon

theorem Ctx.agrees.indistinguishable {c d : Ctx} (h : c.agrees d) : c.indistinguishable d :=
  .inr (.inr ⟨h.valid_left, h.valid_right, h.params, h.canon⟩)

theorem Ctx.agrees.final_eq {c d : Ctx} (h : c.agrees d) : c.final = d.final := by
  have hwidth : c.width = d.width := congrArg Params.width h.params
  have hxorout : c.xorout = d.xorout := congrArg Params.xorout h.params
  have hrefout : c.refout = d.refout := congrArg Params.refout h.params
  rw [Ctx.final, Ctx.final, h.canon, hwidth, hxorout, hrefout]

theorem canon_reload {c : Ctx} (hok : c.ok) (hvalid : c.valid = true) : c.reload.canon = c.init := by
  obtain ⟨hwidth, _, hinit, _⟩ := hok hvalid
  exact reload_canon (supportedWidths_bounds hwidth).2 hinit

theorem Ctx.agrees.reload {c d : Ctx} (h : c.agrees d) : c.reload.agrees d.reload where
  ok_left := reload_ok h.ok_left
  ok_right := reload_ok h.ok_right
  valid_left := h.valid_left
  valid_right := h.valid_right
  params := h.params
  canon := by
    rw [canon_reload h.ok_left h.valid_left, canon_reload h.ok_right h.valid_right]
    exact congrArg Params.init h.params

theorem Ctx.agrees.stepByte {c d : Ctx} (h : c.agrees d) (b : Byte) :
    (c.setReg (c.stepByte b)).agrees (d.setReg (d.stepByte b)) where
  ok_left := setReg_ok h.ok_left fun hvalid => stepByte_lt h.ok_left hvalid b
  ok_right := setReg_ok h.ok_right fun hvalid => stepByte_lt h.ok_right hvalid b
  valid_left := h.valid_left
  valid_right := h.valid_right
  params := h.params
  canon := by
    have hwidth : c.width = d.width := congrArg Params.width h.params
    have hpoly : c.poly = d.poly := congrArg Params.poly h.params
    have hrefin : c.refin = d.refin := congrArg Params.refin h.params
    rw [stepByte_canon h.ok_left h.valid_left, stepByte_canon h.ok_right h.valid_right, h.canon, hwidth, hpoly, hrefin]

theorem Ctx.agrees.process {c d : Ctx} (h : c.agrees d) (s : List Byte) : (c.process s).agrees (d.process s) := by
  induction s generalizing c d with
  | nil => exact h
  | cons b s ih => exact ih (h.stepByte b)

/-- What `Ctx.indistinguishable` leaves to show once equal contexts are set aside. -/
theorem indistinguishable_cases {c d : Ctx} (hc : c.ok) (hd : d.ok) (h : c.indistinguishable d) :
    c = d ∨ (c.valid = false ∧ d.valid = false) ∨ c.agrees d :=
  h.imp_right (Or.imp_right fun ⟨hvc, hvd, hparams, hcanon⟩ => ⟨hc, hd, hvc, hvd, hparams, hcanon⟩)

/-! ### Commands and steps -/

/-- Two answers agree: every next state of `a` is, but for its context, one of `b`, and the two contexts are
indistinguishable. -/
def Answer.indistinguishable (a b : Answer) : Prop :=
  ∀ t, a = .next t → ∃ d, b = .next (t.setCtx d) ∧ t.ctx.indistinguishable d

theorem complete_indistinguishable (s : State) (e : Ctx) {c d : Ctx} (h : c.indistinguishable d) (data : Word) :
    Answer.indistinguishable (complete s c data) (complete (s.setCtx e) d data) := by
  intro t ht
  cases ht
  exact ⟨d, rfl, h⟩

theorem raise_indistinguishable {s : State} {d : Ctx} (h : s.ctx.indistinguishable d) (e : Status) :
    Answer.indistinguishable (raise s e) (raise (s.setCtx d) e) := by
  intro t ht
  cases ht
  exact ⟨d, rfl, h⟩

/-- An engine command whose effect `f` keeps agreeing engines in agreement and whose data they agree on. -/
theorem engineCommand_indistinguishable {f : Ctx → Ctx} {g : Ctx → Word}
    (hf : ∀ c d : Ctx, c.agrees d → (f c).indistinguishable (f d)) (hg : ∀ c d : Ctx, c.agrees d → g c = g d)
    {s : State} {d : Ctx} (hs : s.ctx.ok) (hd : d.ok) (h : s.ctx.indistinguishable d) :
    Answer.indistinguishable (engineCommand s (f s.ctx) (g s.ctx)) (engineCommand (s.setCtx d) (f d) (g d)) := by
  obtain rfl | ⟨hvs, hvd⟩ | hagree := indistinguishable_cases hs hd h
  · exact fun t ht => ⟨t.ctx, ht, .inl rfl⟩
  · rw [engineCommand_of_invalid hvs, engineCommand_of_invalid (s := s.setCtx d) hvd]
    exact raise_indistinguishable h _
  · rw [engineCommand_of_valid hagree.valid_left, engineCommand_of_valid (s := s.setCtx d) hagree.valid_right,
      hg _ _ hagree]
    exact complete_indistinguishable s d (hf _ _ hagree) _

theorem exec_indistinguishable (i : Instr) {s : State} {d : Ctx} (hs : s.ctx.ok) (hd : d.ok)
    (h : s.ctx.indistinguishable d) : Answer.indistinguishable (exec i s) (exec i (s.setCtx d)) := by
  cases i with
  | createGeneric w ri ro poly init xorout =>
    by_cases hw : w.toNat ∈ Config.supportedWidths
    · rw [exec_createGeneric_of_supported hw, exec_createGeneric_of_supported hw]
      exact complete_indistinguishable s d (.inl rfl) _
    · rw [exec_createGeneric_of_unsupported hw, exec_createGeneric_of_unsupported hw]
      exact raise_indistinguishable h _
  | createStandard a => exact complete_indistinguishable s d (.inl rfl) _
  | refl n value =>
    obtain hn | hn := Nat.lt_or_ge 32 n.toNat
    · rw [exec_refl_of_gt hn, exec_refl_of_gt hn]
      exact raise_indistinguishable h _
    · rw [exec_refl_of_le hn, exec_refl_of_le hn]
      exact complete_indistinguishable s d h _
  | reset =>
    exact engineCommand_indistinguishable (f := Ctx.reload) (g := fun _ => 0#32)
      (fun _ _ hcd => hcd.reload.indistinguishable) (fun _ _ _ => rfl) hs hd h
  | chksum =>
    exact engineCommand_indistinguishable (f := id) (g := Ctx.final)
      (fun _ _ hcd => hcd.indistinguishable) (fun _ _ hcd => hcd.final_eq) hs hd h
  | procb b =>
    exact engineCommand_indistinguishable (f := fun c => c.process [b]) (g := fun _ => 0#32)
      (fun _ _ hcd => (hcd.process _).indistinguishable) (fun _ _ _ => rfl) hs hd h
  | proc cnt data =>
    exact engineCommand_indistinguishable (f := fun c => c.process (unpack cnt data)) (g := fun _ => 0#32)
      (fun _ _ hcd => (hcd.process _).indistinguishable) (fun _ _ _ => rfl) hs hd h
  | compute cnt data =>
    exact engineCommand_indistinguishable (f := fun c => c.reload.process (unpack cnt data))
      (g := fun c => (c.reload.process (unpack cnt data)).final)
      (fun _ _ hcd => (hcd.reload.process _).indistinguishable) (fun _ _ hcd => (hcd.reload.process _).final_eq) hs hd h
  | destroy =>
    exact engineCommand_indistinguishable (f := fun c => { c with valid := false }) (g := fun _ => 0#32)
      (fun _ _ _ => .inr (.inl ⟨rfl, rfl⟩)) (fun _ _ _ => rfl) hs hd h

theorem mapNext_retire_indistinguishable {a b : Answer} (h : Answer.indistinguishable a b) (n : Nat) :
    Answer.indistinguishable (mapNext a (·.retire n)) (mapNext b (·.retire n)) := by
  intro t ht
  cases a with
  | next u =>
    obtain ⟨d, rfl, hd⟩ := h u rfl
    cases ht
    exact ⟨d, rfl, hd⟩
  | fault r => cases ht
  | refused r => cases ht

theorem runCommand_indistinguishable {s : State} {d : Ctx} (hs : s.ctx.ok) (hd : d.ok)
    (h : s.ctx.indistinguishable d) : Answer.indistinguishable (runCommand s) (runCommand (s.setCtx d)) := by
  rw [runCommand, runCommand, setCtx_rxBuf]
  cases decode s.rxBuf with
  | instr i rest => exact mapNext_retire_indistinguishable (exec_indistinguishable i hs hd h) _
  | illegal why rest => exact mapNext_retire_indistinguishable (raise_indistinguishable h _) _
  | incomplete => intro t ht; cases ht; exact ⟨d, rfl, h⟩

theorem setCtx_receiveWord (s : State) (d : Ctx) : (s.setCtx d).receiveWord = s.receiveWord.setCtx d := by
  cases hin : s.cmdIn with
  | nil => rw [receiveWord_nil hin, receiveWord_nil (s := s.setCtx d) hin]
  | cons w ws => rw [receiveWord_cons hin, receiveWord_cons (s := s.setCtx d) hin]; rfl

/-- Settles O50: outside the execution of a command no event reads the context, and executing keeps the relation by
`exec_indistinguishable`. -/
theorem indistinguishableContextsRespondAlike : Obligations.IndistinguishableContextsRespondAlike := by
  intro s t d hs hd h hstep
  obtain ⟨hrst, rfl⟩ | ⟨hrst, r, hslot, rfl⟩ | ⟨hrst, hslot, hcomplete, rfl⟩ | ⟨hrst, hslot, hcomplete, _⟩ :=
    step_cases hstep
  · exact ⟨Ctx.zero, step_inReset (s := s.setCtx d) hrst, .inl rfl⟩
  · refine ⟨d, ?_, ?_⟩
    · rw [step_responding (s := s.setCtx d) hrst hslot, setCtx_rspReady]
      split <;> rfl
    · split <;> exact h
  · refine ⟨d, ?_, ?_⟩
    · rw [step_receiving (s := s.setCtx d) hrst hslot hcomplete, setCtx_receiveWord]
    · rw [receiveWord_ctx]; exact h
  · rw [step_executing hrst hslot hcomplete] at hstep
    rw [step_executing (s := s.setCtx d) hrst hslot hcomplete]
    exact runCommand_indistinguishable hs hd h t hstep

/-! ### The generic twin of a catalogue entry -/

theorem standardCtx_agrees_genericCtx (a : Alg) :
    (standardCtx a).agrees (genericCtx (catalogue a).width (catalogue a).refin (catalogue a).refout (catalogue a).poly
      (catalogue a).init (catalogue a).xorout) where
  ok_left := standardCtx_ok a
  ok_right := genericCtx_ok (catalogue_width_supported a) _ _ _ _ _
  valid_left := rfl
  valid_right := rfl
  params := by
    simp only [Ctx.params, standardCtx, genericCtx, and_mask_of_lt (catalogue_poly_lt a),
      and_mask_of_lt (catalogue_init_lt a), and_mask_of_lt (catalogue_xorout_lt a)]
  canon := by
    rw [canon_eq_tcanon (c := standardCtx a) rfl rfl]
    simp only [standardCtx, treset_eq_tcanon, tcanon_tcanon a (catalogue_init_lt a), Ctx.canon, genericCtx,
      and_mask_of_lt (catalogue_init_lt a)]

/-- Settles O51: the entry's values fit its width, so the mask of CREATE_GENERIC leaves them, and both engines start
from INIT on the canonical register. -/
theorem genericTwinOfACatalogueEntry : Obligations.GenericTwinOfACatalogueEntry := by
  intro a s t u w hw ht hu
  have hmem : w.toNat ∈ Config.supportedWidths := hw ▸ catalogue_width_supported a
  rw [exec_createGeneric_of_supported hmem, hw] at hu
  cases ht
  cases hu
  exact ⟨rfl, rfl, (standardCtx_agrees_genericCtx a).indistinguishable, rfl⟩

end Sys2Proof.Machine
end

section
/-! More laws of the engine interface (43_engine_interface.md R128, R132 to R134; 44_catalogue_and_construction.md
R146): commands in a row compose as the functions of the context do, and the catalogue's values come out of running
them. -/

namespace Sys2Proof.Machine

/-! ### Commands in a row -/

/-- After an engine command that kept `valid`, another engine command acts on the context the first one left; without a
valid engine both raise. -/
theorem engineCommand_engineCommand {s t : State} {c : Ctx} {d : Word} (h : engineCommand s c d = .next t)
    (hvalid : c.valid = s.ctx.valid) (f : Ctx → Ctx) (g : Ctx → Word) :
    engineCommand t (f t.ctx) (g t.ctx) = engineCommand s (f c) (g c) := by
  cases hs : s.ctx.valid with
  | true =>
    rw [engineCommand_of_valid hs] at h
    cases h
    rw [engineCommand_of_valid hs, engineCommand_of_valid (s := (s.setCtx c).respond .ok d) (hvalid.trans hs)]
    rfl
  | false =>
    rw [engineCommand_of_invalid hs] at h
    cases h
    rw [engineCommand_of_invalid hs, engineCommand_of_invalid (s := s.respond .destroyedHandle 0#32) hs]
    rfl

/-- Settles O55: processing the joined bytes is processing the first and then the second, and PROCB processes its byte
as PROC does. -/
theorem splitInputEqualsWholeInput : Obligations.SplitInputEqualsWholeInput := by
  refine ⟨fun s t u c₁ c₂ c₃ d₁ d₂ d₃ hbytes ht hu => ?_, fun s b c d hbyte => ?_⟩
  · rw [exec_proc] at ht hu ⊢
    rw [engineCommand_engineCommand ht (process_valid _ _) (·.process (unpack c₂ d₂)) (fun _ => 0#32)] at hu
    rw [hbytes, process_append, hu]
  · rw [exec_procb, exec_proc, hbyte]

/-- Settles O58: each of the three commands acts on the context that the one before it left. -/
theorem computeIsResetProcChksum : Obligations.ComputeIsResetProcChksum := by
  intro s t u v cnt data ht hu hv
  rw [exec_reset] at ht
  rw [exec_proc, engineCommand_engineCommand ht rfl (·.process (unpack cnt data)) (fun _ => 0#32)] at hu
  rw [exec_chksum, engineCommand_engineCommand hu (process_valid _ _) (fun c => c) Ctx.final] at hv
  rw [exec_compute]
  exact hv

/-! ### The values of the catalogue -/

theorem standardCtx_final (a : Alg) : (standardCtx a).final =
    match a with | .crc16 => 0x0000#32 | .ccitt => 0xFFFF#32 | .xmodem => 0x0000#32 | .crc32 => 0x00000000#32 := by
  cases a <;> decide +kernel

/-- Settles O59: the register loaded at construction is taken through the checksum. -/
theorem emptyInputChecksumsOfTheCatalogue : Obligations.EmptyInputChecksumsOfTheCatalogue := by
  intro a s t h
  cases h
  rw [exec_chksum, engineCommand_of_valid (s := (s.setCtx (standardCtx a)).respond .ok 0#32) rfl, respond_ctx,
    setCtx_ctx, standardCtx_final]
  cases a <;> rfl

/-- The register that the check input leaves in each table engine. -/
theorem standardCtx_process_check (a : Alg) :
    (standardCtx a).reload.process (unpack 9#16 [0x34333231#32, 0x38373635#32, 0x00000039#32]) =
      (standardCtx a).setReg (match a with
        | .crc16 => 0xBB3D#32 | .ccitt => 0x29B1#32 | .xmodem => 0x0C73#32 | .crc32 => 0x340BC6D9#32) := by
  cases a <;> decide +kernel

/-- Settles O60: the datapaths run on the check input. -/
theorem checkValuesOfTheCatalogue : Obligations.CheckValuesOfTheCatalogue := by
  intro a s t h
  cases h
  refine ⟨_, engineCommand_of_valid (s := (s.setCtx (standardCtx a)).respond .ok 0#32) rfl _ _, ?_⟩
  simp only [respond_ctx, setCtx_ctx, respond_rspSlot, standardCtx_process_check]
  cases a <;> decide +kernel

end Sys2Proof.Machine
end
